-- ==== Sys2Proof/Word.lean ====
section
/-! DEFINITION. The two widths of this machine (spec/00_scope.md R9, R11): data are 8 bits, addresses 16 bits, bit 0 least significant. -/

namespace Sys2Proof

/-- `u8`: an 8-bit value (R9, R11). -/
abbrev Byte := BitVec 8

/-- `u16`: a 16-bit value, and a bus address (R9, R11, R60). -/
abbrev Word := BitVec 16

end Sys2Proof
end

