-- ==== Sys2Proof/Config.lean ====
section
/-! DEFINITION. The open parameters of spec/00_scope.md R10 that are plain values: MEM_INIT, SCRATCH_INIT, STEP_BITS.
The two parameters that are machines of their own, TABLE and BUS, are `Params` and `BusDevice` of Sys2Proof/Machine/Microcode.lean. -/

namespace Sys2Proof

/-- MEM_INIT (R10, R61; D11, D30): what a byte of the bus holds before anything has written it. The spec gives no value, so this
is a FREE VALUE: it has no body and no proof can know what it answers (DESIGN CHOICE, safe: log 3). -/
opaque Config.memInit : Word → Byte

/-- SCRATCH_INIT (R10, R48; D3): the values of `tmp8`, `tmp16`, `eff` and `crossed` at construction. -/
structure ScratchInit where
  tmp8 : Byte
  tmp16 : Word
  eff : Word
  crossed : Bool
deriving DecidableEq, Repr

/-- The scratch values of `State.reset` (DESIGN CHOICE, unsafe: log 2). The spec gives none; it lets a simulator use 0, 0, 0, false (R10).
Statements about construction quantify over every `ScratchInit` instead of resting on this one. -/
def Config.scratchInit : ScratchInit := { tmp8 := 0, tmp16 := 0, eff := 0, crossed := false }

/-- STEP_BITS (R10; D6): the width of the `step` counter, `none` when it is unbounded. -/
abbrev StepBits := Option Nat

/-- The spec's default: `step` is an unbounded natural number (R42; D6; log 12). -/
def Config.stepBits : StepBits := none

end Sys2Proof
end

