-- ==== Sys2Proof/Machine/State.lean ====
section
/-! DEFINITION. All the state of the machine (spec/10_state.md), as plain data, with its power-on values; and the reasons a step
could stop. -/

namespace Sys2Proof.Machine

/-- What `cur` selects (R41): "one of the 256 rows of `TABLE`, or the RESET row, or the placeholder row". -/
inductive MicroRow where
  /-- The row of `TABLE` for this opcode. -/
  | table (opcode : Byte)
  /-- The RESET row (R166). -/
  | reset
  /-- The no-op placeholder of the construction state (R155). -/
  | placeholder
deriving DecidableEq, Repr

/-- The fields of ProcessorState that a well-formed micro-operation may write whole (R138): the register file (R20) and, of the
control plane, `ir` and the scratch registers (R36 to R40). -/
structure Datapath where
  /-- accumulator (R21) -/
  a : Byte
  /-- index register X (R22) -/
  x : Byte
  /-- index register Y (R23) -/
  y : Byte
  /-- program counter (R24) -/
  pc : Word
  /-- stack pointer, an offset into the stack page (R25) -/
  sp : Byte
  /-- status byte, the one stored copy of the flags (R26, R35) -/
  p : Byte
  /-- current opcode (R36) -/
  ir : Byte
  /-- 8-bit scratch register (R37) -/
  tmp8 : Byte
  /-- 16-bit scratch register (R38) -/
  tmp16 : Word
  /-- effective-address register (R39) -/
  eff : Word
  /-- page-cross flag (R40) -/
  crossed : Bool
deriving DecidableEq, Repr

/-- ProcessorState: the datapath and the three fields of the sequencer (R41 to R43). -/
structure ProcessorState where
  dp : Datapath
  /-- the currently executing Instruction (R41) -/
  cur : MicroRow
  /-- the index of the next micro-operation, an unbounded natural number (R42) -/
  step : Nat
  /-- true in Fetch state, false in Execute state (R43) -/
  ready : Bool
deriving DecidableEq, Repr

/-- One transaction of the sequencer on the bus (R60 to R62). -/
inductive BusEvent where
  /-- `R addr`: a read of one byte, whether or not its value is kept (D23). -/
  | read (addr : Word)
  /-- `W addr=v`: a write of one byte. -/
  | write (addr : Word) (value : Byte)
deriving DecidableEq, Repr

/-- The bytes of the bus that something has written, as (address, byte) pairs with addresses strictly rising and below 65536 (R64). An
address that is not listed has no written value: the bus answers MEM_INIT for it (R61; log 3). -/
abbrev Memory := List Host.Cell

/-- The flat-RAM bus: its written bytes, and the transactions the sequencer has made on it, oldest first (the bus trace of D22 and
D23, a field of the model's own: log 5). -/
structure Bus where
  mem : Memory
  trace : List BusEvent
deriving DecidableEq, Repr

/-- The machine: ProcessorState (R20 to R43) and the bus contents (R51). There is no other state (R52); TABLE is configuration (R50). -/
structure State where
  cpu : ProcessorState
  bus : Bus
deriving DecidableEq, Repr

/-- The reasons the machine stops with a fault: there are none. "The hardware raises no synchronous exception"
(spec/60_exceptions.md R185), `read` is total (R61) and every wrap is defined (R66). -/
inductive Fault : Type
deriving DecidableEq, Repr

/-- The reasons the model gives a step no meaning. -/
inductive Refusal where
  /-- Raised by an arm of `exec` for an instruction that has no meaning yet: no arm raises it in this model. Safe: the run stops. -/
  | notModelled (mnemonic : String)
deriving DecidableEq, Repr

/-- The state `new()` leaves (R47, R48, R156): the power-on state, for any SCRATCH_INIT and any written memory. -/
def State.new (scratch : ScratchInit) (mem : Memory) : State :=
  { cpu :=
      { dp :=
          { a := 0x00, x := 0x00, y := 0x00, pc := 0x0000, sp := 0x00, p := 0x24, ir := 0x00
            tmp8 := scratch.tmp8, tmp16 := scratch.tmp16, eff := scratch.eff, crossed := scratch.crossed }
        cur := .placeholder, step := 0, ready := true }
    bus := { mem := mem, trace := [] } }

/-- The machine as it comes up: the power-on state (R47) over a bus nothing has written (log 1, log 2). The nine-cycle `reset()` is an
operation on any state (R165, R210), `resetOn` of Sys2Proof/Machine/Tick.lean. -/
def State.reset : State := State.new Config.scratchInit []

end Sys2Proof.Machine
end

