-- ==== Sys2Proof/Machine/Flags.lean ====
section
/-! DEFINITION. The flags logic (spec/40_flags_and_stack_ops.md section 1): set, clear and test one bit, and the two views of the status byte.
No operation of this hardware computes a flag from a result (R122). -/

namespace Sys2Proof.Machine

/-- Bit positions of the status byte (R26, R93). -/
def carryPos : Fin 8 := 0
def zeroPos : Fin 8 := 1
def irqDisablePos : Fin 8 := 2
def decimalPos : Fin 8 := 3
def breakPos : Fin 8 := 4
def unusedPos : Fin 8 := 5
def overflowPos : Fin 8 := 6
def negativePos : Fin 8 := 7

/-- The mask `1 << pos` at 8 bits (R26). -/
def flagMask (pos : Fin 8) : Byte := 1#8 <<< pos.val

/-- `set_flag_bit(pos)` (R110). -/
def setFlagBit (pos : Fin 8) (p : Byte) : Byte := p ||| flagMask pos

/-- `clear_flag_bit(pos)`, with the COMPLEMENT of the mask (R111; spec/90_conflicts.md C4). -/
def clearFlagBit (pos : Fin 8) (p : Byte) : Byte := p &&& ~~~flagMask pos

/-- Flag test on the raw byte: `p[pos]` (R112). -/
def flagTest (pos : Fin 8) (p : Byte) : Bool := p.getLsbD pos.val

/-- The decomposed view: eight booleans, one of them for bit 5 (R113; D27). -/
structure Flags where
  carry : Bool
  zero : Bool
  irqDisable : Bool
  decimal : Bool
  brk : Bool
  unused : Bool
  overflow : Bool
  negative : Bool
deriving DecidableEq, Repr

/-- `from_byte(b)` (R113): bit 5 is carried as stored. -/
def fromByte (b : Byte) : Flags :=
  { carry := flagTest carryPos b
    zero := flagTest zeroPos b
    irqDisable := flagTest irqDisablePos b
    decimal := flagTest decimalPos b
    brk := flagTest breakPos b
    unused := flagTest unusedPos b
    overflow := flagTest overflowPos b
    negative := flagTest negativePos b }

/-- `to_byte(f)` (R114). -/
def toByte (f : Flags) : Byte :=
  (if f.carry then 0x01 else 0) ||| (if f.zero then 0x02 else 0) ||| (if f.irqDisable then 0x04 else 0) |||
    (if f.decimal then 0x08 else 0) ||| (if f.brk then 0x10 else 0) ||| (if f.unused then 0x20 else 0) |||
    (if f.overflow then 0x40 else 0) ||| (if f.negative then 0x80 else 0)

/-- `force_unused(b)` (R116), which host microcode owes on every whole-byte write of `p`. -/
def forceUnused (b : Byte) : Byte := b ||| 0x20

end Sys2Proof.Machine
end

