-- ==== Sys2Proof/Machine/Microcode.lean ====
section
/-! DEFINITION. The microcode level (spec/30_encoding.md R96 to R98, spec/41_sequencer_tick.md R138, spec/42_microcode_table.md R150 to
R158): bus cycles, bus devices, micro-operations, Instructions, the Microcode Table, and what well-formed microcode is. -/

namespace Sys2Proof.Machine

/-- The work of one clock cycle with AT MOST ONE bus transaction (R79, D12), ending in a result. The transaction's address and data are
fixed before it happens; what follows a read may depend on the byte the bus answers. More than one transaction cannot be written. -/
inductive BusCycle (α : Type) where
  /-- No transaction. -/
  | quiet (result : α)
  /-- `MemRead(addr, 1)`, and the result from the byte read (R61). -/
  | read (addr : Word) (result : Byte → α)
  /-- `MemWrite(addr, 1, value)` (R62). -/
  | write (addr : Word) (value : Byte) (result : α)

/-- The same transaction with the result passed through `f`. -/
def BusCycle.map {α β : Type} (f : α → β) : BusCycle α → BusCycle β
  | .quiet r => .quiet (f r)
  | .read addr k => .read addr fun b => f (k b)
  | .write addr v r => .write addr v (f r)

/-- The transaction a cycle makes, if it makes one. -/
def BusCycle.events {α : Type} : BusCycle α → List BusEvent
  | .quiet _ => []
  | .read addr _ => [.read addr]
  | .write addr v _ => [.write addr v]

/-- `q` holds of the cycle's result, whatever byte the bus answers. -/
def BusCycle.Always {α : Type} (q : α → Prop) : BusCycle α → Prop
  | .quiet r => q r
  | .read _ k => ∀ b, q (k b)
  | .write _ _ r => q r

/-- BUS (R10, R63; D11): a bus is a state machine of its own with a total read that may change its state, and a write. -/
structure BusDevice (σ : Type) where
  read : σ → Word → Byte × σ
  write : σ → Word → Byte → σ

/-- Run one cycle on a bus. -/
def BusCycle.runOn {α σ : Type} (B : BusDevice σ) (bus : σ) : BusCycle α → α × σ
  | .quiet r => (r, bus)
  | .read addr k => (k (B.read bus addr).1, (B.read bus addr).2)
  | .write addr v r => (r, B.write bus addr v)

/-- StepControl (R96): the directive a micro-operation returns. -/
inductive StepControl where
  | advance
  | complete
  | branch (n : Nat)
deriving DecidableEq, Repr

/-- What a micro-operation yields (R138): the datapath after it, whether it set `ready` to true, and its directive. It has no way to
write `cur` or `step`, nor to set `ready` to false (D13). -/
structure Effect where
  dp : Datapath
  setReady : Bool
  ctl : StepControl
deriving DecidableEq, Repr

/-- A micro-operation (R97, R138): a deterministic function of ProcessorState and of the byte the bus answers. -/
abbrev MicroOp := ProcessorState → BusCycle Effect

/-- An Instruction (R98, R150): a diagnostic name and a finite sequence of micro-operations, indexed from 0 by `step`. -/
structure Instruction where
  name : String
  seq : List MicroOp

/-- TABLE (R151): a total map from opcodes to Instructions. -/
abbrev Table := Byte → Instruction

/-- Populating one entry before the first tick (R157). -/
def Table.install (T : Table) (opcode : Byte) (ins : Instruction) : Table :=
  fun b => if b = opcode then ins else T b

/-- The sequencer's parameters (R10): the populated table, constant for a whole run (R151), and the width of `step`. -/
structure Params where
  table : Table
  stepBits : StepBits

/-- A micro-operation must not clear bit 5 of the status byte (R138, R32, R222). The hardware performs it all the same (D29), so
this is a premise of claims and not a check of the step. -/
def MicroOp.KeepsUnused (μ : MicroOp) : Prop :=
  ∀ c : ProcessorState, c.dp.p.getLsbD 5 = true → (μ c).Always fun e => e.dp.p.getLsbD 5 = true

/-- The limits of R138 that types do not already impose, on every row of the table. -/
def Params.WellFormed (P : Params) : Prop :=
  ∀ opcode : Byte, ∀ μ ∈ (P.table opcode).seq, μ.KeepsUnused

/-- The host's duties (a) and (c) of R158: the last entry always signals Complete, no other entry advances past the end, and
every Branch target is a valid index. -/
def Instruction.Tidy (ins : Instruction) : Prop :=
  ∀ (k : Nat) (μ : MicroOp), ins.seq[k]? = some μ → ∀ c : ProcessorState, (μ c).Always fun e =>
    match e.ctl with
    | .advance => k + 1 < ins.seq.length
    | .complete => True
    | .branch n => n < ins.seq.length

end Sys2Proof.Machine
end

