-- ==== Sys2Proof/Machine/Ops.lean ====
section
/-! DEFINITION. The named operations over memory, the bus and registers (spec/20_memory.md; spec/40_flags_and_stack_ops.md sections 2 and 3), and
the one trap-like entry of the hardware, the set-up of `reset()` (spec/60_exceptions.md R189, spec/43_reset_microcode.md R165). There is no
other exception to take and no return from one (R185, R190). -/

namespace Sys2Proof.Machine

/-! ### Fixed addresses (R9, R72 to R74) -/

/-- The address RESET steps 1 to 3 read and discard (R74). -/
def dummyAddress : Word := 0x00FF
/-- The base of the stack page (R72). -/
def stackBase : Word := 0x0100
/-- Where the low byte of the reset vector stands (R73). -/
def vectorLowAddress : Word := 0xFFFC
/-- Where the high byte of the reset vector stands (R73). -/
def vectorHighAddress : Word := 0xFFFD

/-! ### Memory -/

/-- What an address that is not listed holds: no written value. The bus answers MEM_INIT for it (log 3). -/
def Memory.unlisted : Option Byte := none

/-- The byte last written to an address, if any was. -/
def Memory.read? : Memory → Nat → Option Byte
  | [], _ => Memory.unlisted
  | (k, v) :: m, addr => if addr = k then some v else Memory.read? m addr

/-- Write one byte, keeping addresses strictly rising. -/
def Memory.write : Memory → Nat → Byte → Memory
  | [], addr, v => [(addr, v)]
  | (k, w) :: m, addr, v =>
    if addr < k then (addr, v) :: (k, w) :: m
    else if addr = k then (addr, v) :: m
    else (k, w) :: Memory.write m addr v

/-- Every listed address is above `low`, below 65536, and above the one before it. -/
def Memory.risingFrom : Nat → Memory → Bool
  | _, [] => true
  | low, (k, _) :: m => decide (low ≤ k) && decide (k < 65536) && Memory.risingFrom (k + 1) m

/-- The canonical form: addresses strictly rising and inside the 64 KiB space (R64). No listed byte equals what an unlisted address holds,
because an unlisted address holds no written value (log 3). -/
def Memory.wf (m : Memory) : Bool := Memory.risingFrom 0 m

/-! ### The bus -/

/-- What a read of this address answers (R61): the byte last written, or MEM_INIT. Looking changes nothing. -/
def Bus.peek (bus : Bus) (addr : Word) : Byte :=
  match Memory.read? bus.mem addr.toNat with
  | some v => v
  | none => Config.memInit addr

/-- Put a byte into the bus without a transaction of the sequencer (the host's write, R6, R65). -/
def Bus.poke (bus : Bus) (addr : Word) (v : Byte) : Bus :=
  { bus with mem := Memory.write bus.mem addr.toNat v }

/-- The default bus (R63; D11): 65536 bytes of RAM, reads without side effects, writes always land; every transaction, discarded
reads included, is recorded in the trace (D23). -/
def flatRam : BusDevice Bus :=
  { read := fun bus addr => (bus.peek addr, { bus with trace := bus.trace ++ [.read addr] })
    write := fun bus addr v => { bus.poke addr v with trace := bus.trace ++ [.write addr v] } }

/-- Run one cycle of the processor on the machine's own bus. -/
def State.runCycle (s : State) (cycle : BusCycle ProcessorState) : State :=
  { cpu := (cycle.runOn flatRam s.bus).1, bus := (cycle.runOn flatRam s.bus).2 }

/-! ### Register arithmetic (R117 to R122): no flag is touched by any of it -/

/-- `sp.to_address()` (R117, R94). -/
def stackAddress (sp : Byte) : Word := stackBase ||| sp.setWidth 16

/-- `sp.decrement()` (R118): wraps modulo 256. -/
def spDecrement (sp : Byte) : Byte := sp - 1

/-- `sp.increment()` (R119): wraps modulo 256. -/
def spIncrement (sp : Byte) : Byte := sp + 1

/-- `pc <- pc +16 1` (R120): wraps modulo 65536. -/
def pcIncrement (pc : Word) : Word := pc + 1

/-- `{high, low}` (R121, R95). -/
def wordOf (high low : Byte) : Word := (high.setWidth 16 <<< 8) ||| low.setWidth 16

/-! ### Entering RESET -/

/-- The three set-up writes of `reset()` (R165), which take no tick: whatever instruction was in progress is abandoned where it stands. -/
def beginReset (c : ProcessorState) : ProcessorState :=
  { c with cur := .reset, step := 0, ready := false }

end Sys2Proof.Machine
end

