-- ==== Sys2Proof/Machine/Operands.lean ====
section
/-! DEFINITION. The addressing primitives (spec/40_flags_and_stack_ops.md R123): the ways a micro-operation forms a bus address. Each takes the datapath
before the cycle and what to do with the datapath (and the byte read) after it. The documented instruction has no operand (R92); RESET
uses (a), (b) and (c), host microcode may use all of them. -/

namespace Sys2Proof.Machine

/-- The end of a micro-operation that writes `dp` and returns a directive, leaving `ready` alone. -/
def Effect.done (dp : Datapath) (ctl : StepControl) : Effect := { dp := dp, setReady := false, ctl := ctl }

/-- (a) Program-counter addressing: read at `pc`, then increment it (R123; operand bytes of host microcode, R159). -/
def pcRead (dp : Datapath) (k : Byte → Datapath → Effect) : BusCycle Effect :=
  .read dp.pc fun b => k b { dp with pc := pcIncrement dp.pc }

/-- (b) Stack addressing of RESET: a read in place of the push, then decrement ("a suppressed stack push", R123, R170). -/
def suppressedPush (dp : Datapath) (k : Datapath → Effect) : BusCycle Effect :=
  .read (stackAddress dp.sp) fun _ => k { dp with sp := spDecrement dp.sp }

/-- (b) A push by host microcode: write at the stack address, then decrement (R123). -/
def stackPush (dp : Datapath) (v : Byte) (k : Datapath → Effect) : BusCycle Effect :=
  .write (stackAddress dp.sp) v (k { dp with sp := spDecrement dp.sp })

/-- (b) A pull by host microcode: increment, then read (PRESUMED order: R123 marks it as general knowledge, G5; log 13). -/
def stackPull (dp : Datapath) (k : Byte → Datapath → Effect) : BusCycle Effect :=
  .read (stackAddress (spIncrement dp.sp)) fun b => k b { dp with sp := spIncrement dp.sp }

/-- (c) Absolute constant addressing (R123). -/
def absoluteRead (addr : Word) (dp : Datapath) (k : Byte → Datapath → Effect) : BusCycle Effect :=
  .read addr fun b => k b dp

/-- (d) Addressing through `eff`, for host microcode (R123, R39): read. -/
def effectiveRead (dp : Datapath) (k : Byte → Datapath → Effect) : BusCycle Effect :=
  .read dp.eff fun b => k b dp

/-- (d) Addressing through `eff`, for host microcode (R123, R39): write. -/
def effectiveWrite (dp : Datapath) (v : Byte) (k : Datapath → Effect) : BusCycle Effect :=
  .write dp.eff v (k dp)

end Sys2Proof.Machine
end

