-- ==== Sys2Proof/Machine/Sequencer.lean ====
section
/-! DEFINITION. The parts of `tick()` (spec/41_sequencer_tick.md): what Fetch latches, the three directives, the clamp, and one Execute
cycle of a given Instruction. -/

namespace Sys2Proof.Machine

/-- The Fetch phase after the byte has been read (R131): `pc`, `ir`, `cur`, `step` and `ready` are written, nothing else (R142). -/
def latchOpcode (b : Byte) (c : ProcessorState) : ProcessorState :=
  { dp := { c.dp with pc := pcIncrement c.dp.pc, ir := b }, cur := .table b, step := 0, ready := false }

/-- The value a step counter of this width keeps of `n` (R42; D6): `n` itself when the counter is unbounded. -/
def StepBits.wrap (bits : StepBits) (n : Nat) : Nat :=
  match bits with
  | none => n
  | some k => n % 2 ^ k

/-- Apply a directive (R133 Advance, R134 Complete, R135 Branch). -/
def applyDirective (bits : StepBits) (ctl : StepControl) (c : ProcessorState) : ProcessorState :=
  match ctl with
  | .advance => { c with step := StepBits.wrap bits (c.step + 1) }
  | .complete => { c with ready := true }
  | .branch n => { c with step := StepBits.wrap bits n }

/-- The clamp (R136): a step that has reached the end of the sequence forces `ready`; `step` itself stays as it is. -/
def clampReady (length : Nat) (c : ProcessorState) : ProcessorState :=
  if length ≤ c.step then { c with ready := true } else c

/-- The order of effects inside an Execute tick (R139): the micro-operation's own, then the directive, then the clamp. -/
def commitEffect (bits : StepBits) (length : Nat) (c : ProcessorState) (e : Effect) : ProcessorState :=
  clampReady length (applyDirective bits e.ctl { c with dp := e.dp, ready := c.ready || e.setReady })

/-- The Execute phase (R132) of the Instruction `ins`: run the micro-operation at `step`, or none when `step` is out of range (R137). -/
def executeCycle (bits : StepBits) (ins : Instruction) (c : ProcessorState) : BusCycle ProcessorState :=
  match ins.seq[c.step]? with
  | some μ => (μ c).map (commitEffect bits ins.seq.length c)
  | none => .quiet (clampReady ins.seq.length c)

end Sys2Proof.Machine
end

