-- ==== Sys2Proof/Machine/Nop.lean ====
section
/-! DEFINITION. The default no-op (spec/42_microcode_table.md R153), the one instruction of the opcode table. -/

namespace Sys2Proof.Machine

/-- The one micro-operation of the default no-op: no bus transaction, no register or flag change, Complete (R153; D7; log 9). -/
def nopStep : MicroOp := fun c => .quiet (Effect.done c.dp .complete)

/-- The default no-op as an Instruction (R153). -/
def nopInstruction : Instruction := { name := "NOP", seq := [nopStep] }

/-- `NOP`: one clock cycle of the instruction (R153). In Fetch state, after the opcode byte has been read, it is latched and `pc` moves past
it (tick 1); in Execute state the micro-operation at `step` runs (tick 2). See log 6. -/
def execNop (opcode : Byte) (s : State) : Host.Outcome State Fault Refusal :=
  if s.cpu.ready then .next { s with cpu := latchOpcode opcode s.cpu }
  else .next (s.runCycle (executeCycle Config.stepBits nopInstruction s.cpu))

end Sys2Proof.Machine
end

