-- ==== Sys2Proof/Syntax.lean ====
section
/-! DEFINITION. The instructions of spec/opcode_table.json: one row, one constructor. -/

namespace Sys2Proof

/-- The opcode table has one wildcard row, `NOP`, format `OP8`: all eight bits are the opcode and every opcode byte matches it
(spec/30_encoding.md R90, R99). RESET has no opcode and therefore no row (R100). -/
inductive Instr where
  /-- `NOP`, the default no-op, with the opcode byte that selected it (spec/42_microcode_table.md R153). -/
  | nop (opcode : Byte)
deriving DecidableEq, Repr

end Sys2Proof
end

