-- ==== Sys2Proof/WellFormed.lean ====
section
/-! DEFINITION. The checks on terms: instructions, bit positions of the status byte, the width of the step counter. The limits on
host microcode (R138) are in Sys2Proof/Machine/Microcode.lean beside the type they are about. -/

namespace Sys2Proof

/-- There are no illegal, reserved, hint or custom encodings (spec/30_encoding.md R101), so every instruction is well formed. -/
def Instr.wf : Instr → Bool
  | .nop _ => true

/-- A bit position of the status byte is 0 to 7; anything else is outside the domain and is refused
(spec/40_flags_and_stack_ops.md R110, R111; D10; log 15). -/
def flagPosition? (pos : Nat) : Option (Fin 8) :=
  if h : pos < 8 then some ⟨pos, h⟩ else none

/-- A step counter of this width can hold every index below and including `n` (D6: "any finite width large enough for the longest
sequence and every Branch target behaves the same"). -/
def StepBits.holds (bits : StepBits) (n : Nat) : Bool :=
  match bits with
  | none => true
  | some k => decide (n < 2 ^ k)

end Sys2Proof
end

