-- ==== Sys2Proof/Decode.lean ====
section
/-! DEFINITION. The decoder and the encoder of spec/30_encoding.md. -/

namespace Sys2Proof

/-- Why bytes do not decode. No byte value is refused (R101): the one failure is that there is no byte to read. -/
inductive DecodeError where
  /-- The byte list is empty: format `OP8` needs one byte (R90). -/
  | noOpcodeByte
deriving DecidableEq, Repr

/-- The opcode map (R99): one entry repeated 256 times. -/
def decodeOpcode (opcode : Byte) : Instr := .nop opcode

/-- An instruction is one byte, all of it the opcode (R90, R91); the bytes after it are left over. -/
def decode : List Byte → Except DecodeError (Instr × List Byte)
  | [] => .error .noOpcodeByte
  | opcode :: rest => .ok (decodeOpcode opcode, rest)

/-- The bytes of an instruction (R90): its opcode. -/
def encode : Instr → List Byte
  | .nop opcode => [opcode]

/-- The one byte of an instruction whose bits, numbered as spec/opcode_table.json numbers them, are `w`; bits from `nbits` up are 0. -/
def tableWordByte (nbits w : Nat) : Byte := BitVec.ofNat 8 (w % 2 ^ nbits)

/-- The instruction the decoder reads from a word of the opcode table. -/
def decodeTableWord (nbits w : Nat) : Option Instr :=
  match decode [tableWordByte nbits w] with
  | .ok (i, _) => some i
  | .error _ => none

end Sys2Proof
end

