-- ==== Sys2Proof/Machine/Reset.lean ====
section
/-! DEFINITION. The RESET microcode (spec/43_reset_microcode.md R166 to R175): nine micro-operations, a constant of the hardware. -/

namespace Sys2Proof.Machine

/-- The flag operations of RESET step 1 (R167): set irq_disable, set unused, clear decimal. -/
def resetFlags (p : Byte) : Byte := clearFlagBit decimalPos (setFlagBit unusedPos (setFlagBit irqDisablePos p))

/-- Step 1 (R167): clear `sp` and `ir`, the three flag operations, one discarded read at 0x00FF. -/
def resetStep1 : MicroOp := fun c =>
  absoluteRead dummyAddress c.dp fun _ dp =>
    Effect.done { dp with sp := 0x00, ir := 0x00, p := resetFlags dp.p } .advance

/-- Step 2 (R168): one discarded read at 0x00FF. -/
def resetStep2 : MicroOp := fun c => absoluteRead dummyAddress c.dp fun _ dp => Effect.done dp .advance

/-- Step 3 (R169): one discarded read at 0x00FF. -/
def resetStep3 : MicroOp := fun c => absoluteRead dummyAddress c.dp fun _ dp => Effect.done dp .advance

/-- Step 4 (R170): a suppressed push of PC-high. -/
def resetStep4 : MicroOp := fun c => suppressedPush c.dp fun dp => Effect.done dp .advance

/-- Step 5 (R171): a suppressed push of PC-low. -/
def resetStep5 : MicroOp := fun c => suppressedPush c.dp fun dp => Effect.done dp .advance

/-- Step 6 (R172): a suppressed push of the status byte. -/
def resetStep6 : MicroOp := fun c => suppressedPush c.dp fun dp => Effect.done dp .advance

/-- Step 7 (R173): the low byte of the vector into `tmp8` (which scratch register is D5; log 10). -/
def resetStep7 : MicroOp := fun c =>
  absoluteRead vectorLowAddress c.dp fun b dp => Effect.done { dp with tmp8 := b } .advance

/-- Step 8 (R174): the high byte of the vector; `pc` is loaded whole. -/
def resetStep8 : MicroOp := fun c =>
  absoluteRead vectorHighAddress c.dp fun b dp => Effect.done { dp with pc := wordOf b dp.tmp8 } .advance

/-- Step 9 (R175): the byte at `pc` into `ir`, `pc` incremented, `ready` set by the micro-operation itself and by Complete. -/
def resetStep9 : MicroOp := fun c =>
  pcRead c.dp fun b dp => { dp := { dp with ir := b }, setReady := true, ctl := .complete }

/-- RESET (R166): exactly nine micro-operations, in this order; no entry of TABLE. -/
def resetInstruction : Instruction :=
  { name := "RESET"
    seq := [resetStep1, resetStep2, resetStep3, resetStep4, resetStep5, resetStep6, resetStep7, resetStep8, resetStep9] }

end Sys2Proof.Machine
end

