-- ==== Sys2Proof/Machine/Tick.lean ====
section
/-! DEFINITION. `tick()` and `reset()` for ANY Microcode Table and ANY bus (spec/41_sequencer_tick.md R130 to R137, spec/43_reset_microcode.md
R165), and the hardware's own parameters: the all-no-op table of `new()` (spec/42_microcode_table.md R156) on flat RAM. -/

namespace Sys2Proof.Machine

/-- The table `new()` builds: the default no-op at all 256 opcodes (R99, R152, R156). -/
def defaultTable : Table := fun _ => nopInstruction

/-- The hardware as the source defines it (R10): the default table, an unbounded `step`. -/
def defaultParams : Params := { table := defaultTable, stepBits := Config.stepBits }

/-- The Instruction a row holds (R41); the placeholder is the default no-op (R155; D8; log 17). -/
def Params.instructionOf (P : Params) : MicroRow → Instruction
  | .table opcode => P.table opcode
  | .reset => resetInstruction
  | .placeholder => nopInstruction

/-- The Fetch phase (R131): one read at the old `pc`, then the latch. -/
def fetchCycle (c : ProcessorState) : BusCycle ProcessorState :=
  .read c.dp.pc fun b => latchOpcode b c

/-- `tick()` (R130): exactly one of the two phases. -/
def tickCycle (P : Params) (c : ProcessorState) : BusCycle ProcessorState :=
  if c.ready then fetchCycle c else executeCycle P.stepBits (P.instructionOf c.cur) c

/-- One tick of a processor on a bus. -/
def tickOn {σ : Type} (P : Params) (B : BusDevice σ) (m : ProcessorState × σ) : ProcessorState × σ :=
  (tickCycle P m.1).runOn B m.2

/-- Tick until `ready` is true, at least once and at most `fuel` times (R165); `none` when the fuel runs out first. -/
def tickUntilReady {σ : Type} (P : Params) (B : BusDevice σ) : Nat → ProcessorState × σ → Option (ProcessorState × σ)
  | 0, _ => none
  | fuel + 1, m => if (tickOn P B m).1.ready then some (tickOn P B m) else tickUntilReady P B fuel (tickOn P B m)

/-- `reset()` (R165): the three set-up writes, then ticks until `ready`. Nine ticks are enough (R176). -/
def resetOn {σ : Type} (P : Params) (B : BusDevice σ) (fuel : Nat) (m : ProcessorState × σ) : Option (ProcessorState × σ) :=
  tickUntilReady P B fuel (beginReset m.1, m.2)

/-- One tick of the machine, on its own bus, with these parameters. -/
def State.tickWith (P : Params) (s : State) : State := s.runCycle (tickCycle P s.cpu)

/-- Several ticks. -/
def State.ticksWith (P : Params) : Nat → State → State
  | 0, s => s
  | n + 1, s => State.ticksWith P n (s.tickWith P)

/-- The machine after the three set-up writes of `reset()`. -/
def State.beginReset (s : State) : State := { s with cpu := Sys2Proof.Machine.beginReset s.cpu }

/-- `reset()` on the machine's own bus (R165); `none` when nine ticks do not end it, which only a step counter too narrow for RESET can cause. -/
def State.runReset (P : Params) (s : State) : Option State :=
  match resetOn P flatRam 9 (s.cpu, s.bus) with
  | some m => some { cpu := m.1, bus := m.2 }
  | none => none

/-- The Fetch phase's bus read (R131): the byte at `pc`, and the machine after that transaction. -/
def State.fetchOpcode (s : State) : Byte × State :=
  ((flatRam.read s.bus s.cpu.dp.pc).1, { s with bus := (flatRam.read s.bus s.cpu.dp.pc).2 })

/-- A tick in Execute state of a row that no opcode selects: RESET (R100) or the placeholder (R155). -/
def State.rowTick (s : State) : Host.Outcome State Fault Refusal :=
  .next (s.runCycle (executeCycle Config.stepBits (defaultParams.instructionOf s.cpu.cur) s.cpu))

end Sys2Proof.Machine
end

