-- ==== Sys2Proof/Machine/Step.lean ====
section
/-! DEFINITION. One step is one `tick()` (spec/00_scope.md R5, R8; spec/41_sequencer_tick.md R130). -/

namespace Sys2Proof.Machine

/-- One clock cycle of the hardware with the default table on flat RAM. In Fetch state the opcode byte is read at `pc` and the decoded
instruction's first cycle latches it (R131); in Execute state the instruction that `cur` selects runs its next cycle (R132); the RESET and
placeholder rows, which no opcode selects, run theirs (R100, R155). -/
def step (s : State) : Host.Outcome State Fault Refusal :=
  if s.cpu.ready then exec (decodeOpcode s.fetchOpcode.1) s.fetchOpcode.2
  else
    match s.cpu.cur with
    | .table opcode => exec (decodeOpcode opcode) s
    | .reset => s.rowTick
    | .placeholder => s.rowTick

/-- `s` with this instruction's one byte stored at `pc` and the machine in Fetch state, which is all the fetch needs (log 18). -/
def State.withFetchWord (s : State) (nbits w : Nat) : State :=
  { cpu := { s.cpu with ready := true }
    bus := s.bus.poke s.cpu.dp.pc (tableWordByte nbits w) }

end Sys2Proof.Machine
end

