-- ==== Sys2Proof/Machine/HostOps.lean ====
section
/-! DEFINITION. What the host may do (spec/00_scope.md R6; spec/70_reset_and_hazards.md R227): between ticks only, and nothing else. `new()` is
`State.new`; populating the table is the choice of `Params` (R157); reading a ProcessorState field is reading the field. -/

namespace Sys2Proof.Machine

/-- The host's operations on a running machine (R6). -/
inductive HostOp where
  /-- advance one clock cycle (R130) -/
  | tick
  /-- `reset()`, a blocking call (R165) -/
  | reset
  /-- write `pc`, in Fetch state only (R6, R227; D18) -/
  | setPc (v : Word)
  /-- write one byte of the bus (R6, R65) -/
  | busWrite (addr : Word) (v : Byte)
deriving DecidableEq, Repr

/-- A host write of `pc`. In Execute state the host has no such move (R227; U13; log 16). -/
def State.hostSetPc (v : Word) (s : State) : Option State :=
  if s.cpu.ready then some { s with cpu := { s.cpu with dp := { s.cpu.dp with pc := v } } } else none

/-- A host write of the bus; it is no transaction of the sequencer. -/
def State.hostWrite (addr : Word) (v : Byte) (s : State) : State := { s with bus := s.bus.poke addr v }

/-- A host read of the bus. -/
def State.hostRead (addr : Word) (s : State) : Byte := s.bus.peek addr

/-- One operation of the host; `none` where the host has no such move. -/
def hostStep (P : Params) (op : HostOp) (s : State) : Option State :=
  match op with
  | .tick => some (s.tickWith P)
  | .reset => s.runReset P
  | .setPc v => s.hostSetPc v
  | .busWrite addr v => some (s.hostWrite addr v)

/-- A whole run: a host-chosen list of operations (D22). -/
def hostRun (P : Params) : List HostOp → State → Option State
  | [], s => some s
  | op :: ops, s =>
    match hostStep P op s with
    | some s' => hostRun P ops s'
    | none => none

end Sys2Proof.Machine
end

