-- ==== Sys2Proof/Safety.lean ====
section
/-! DEFINITION. What a sound state and a run are, in the terms the statements use. -/

namespace Sys2Proof.Machine

/-- R45: in Execute state `step` is a valid index into the current Instruction, except right after the Fetch of an empty one. -/
def StepInRange (P : Params) (c : ProcessorState) : Prop :=
  c.ready = false →
    c.step < (P.instructionOf c.cur).seq.length ∨ (c.step = 0 ∧ (P.instructionOf c.cur).seq.length = 0)

/-- The invariant of the machine with parameters `P`. -/
structure Inv (P : Params) (s : State) : Prop where
  /-- the memory is in its canonical form (R64) -/
  mem_wf : Memory.wf s.bus.mem = true
  /-- bit 5 of the status byte is set (R32) -/
  unused_set : s.cpu.dp.p.getLsbD 5 = true
  /-- R45 -/
  step_in_range : StepInRange P s.cpu
  /-- the placeholder never runs (R155) -/
  placeholder_idle : s.cpu.cur = .placeholder → s.cpu.ready = true

/-- `n` steps of the machine, stopping at the first that does not answer a next state. -/
def runSteps : Nat → State → Host.Outcome State Fault Refusal
  | 0, s => .next s
  | n + 1, s =>
    match step s with
    | .next s' => runSteps n s'
    | .fault r => .fault r
    | .refused r => .refused r

/-- The registers that exist for host microcode only (R21, R22, R23, R38, R39, R40). -/
structure HostRegs where
  a : Byte
  x : Byte
  y : Byte
  tmp16 : Word
  eff : Word
  crossed : Bool
deriving DecidableEq, Repr

/-- `s` with the registers of host microcode replaced. -/
def State.withHostRegs (s : State) (r : HostRegs) : State :=
  { s with cpu := { s.cpu with dp :=
    { s.cpu.dp with a := r.a, x := r.x, y := r.y, tmp16 := r.tmp16, eff := r.eff, crossed := r.crossed } } }

/-- `s` with the status byte replaced. -/
def State.withStatus (s : State) (p : Byte) : State :=
  { s with cpu := { s.cpu with dp := { s.cpu.dp with p := p } } }

/-- Every micro-operation of `ins` but the last always advances, the last always completes, and none sets `ready` itself. -/
def Instruction.StraightLine (ins : Instruction) : Prop :=
  ∀ (k : Nat) (μ : MicroOp), ins.seq[k]? = some μ → ∀ c : ProcessorState, (μ c).Always fun e =>
    e.setReady = false ∧ e.ctl = if k + 1 = ins.seq.length then .complete else .advance

/-- No micro-operation of `ins` ever ends it: each advances or branches to a valid index, and none sets `ready` itself. -/
def Instruction.Endless (ins : Instruction) : Prop :=
  ∀ (k : Nat) (μ : MicroOp), ins.seq[k]? = some μ → ∀ c : ProcessorState, (μ c).Always fun e =>
    e.setReady = false ∧
      match e.ctl with
      | .advance => k + 1 < ins.seq.length
      | .complete => False
      | .branch n => n < ins.seq.length

end Sys2Proof.Machine
end

