-- ==== Sys2Proof/Certificates/Slice0/Obligations.lean ====
section
/-! DEFINITION. The statements about the machine, in the order of the spec's files. -/

open Sys2Proof Sys2Proof.Machine

/-! ### State: spec/10_state.md -/

/-- R47: what `new()` leaves, for any scratch values and any memory; a tick straight after it fetches the opcode at address 0x0000. -/
def Obligations.ConstructionLeavesThePowerOnValues : Prop :=
  ∀ (scratch : ScratchInit) (mem : Memory),
    let s := State.new scratch mem
    s.cpu.dp.pc = 0x0000 ∧ s.cpu.dp.sp = 0x00 ∧ s.cpu.dp.a = 0x00 ∧ s.cpu.dp.x = 0x00 ∧ s.cpu.dp.y = 0x00 ∧
    s.cpu.dp.p = 0x24 ∧ s.cpu.dp.ir = 0x00 ∧ s.cpu.cur = .placeholder ∧ s.cpu.step = 0 ∧ s.cpu.ready = true ∧
    ∃ t, step s = .next t ∧ t.bus.trace = s.bus.trace ++ [.read 0x0000] ∧ t.cpu.dp.ir = s.hostRead 0x0000 ∧
      t.cpu.dp.pc = 0x0001 ∧ t.cpu.ready = false

/-- R45 (whose proof R45 derives from the clamp), R32, R155 and the canonical form of memory (log 3) hold at construction, for every
table, every scratch values and every canonical memory; so they hold of `State.reset`. -/
def Obligations.ConstructionMeetsTheInvariant : Prop :=
  (∀ (P : Params) (scratch : ScratchInit) (mem : Memory), Memory.wf mem = true → Inv P (State.new scratch mem)) ∧
  Inv defaultParams State.reset

/-- R32, R45, R155 and the canonical form of memory: from EVERY state that meets the invariant, a step gives a state that meets it. -/
def Obligations.StepKeepsTheInvariant : Prop :=
  ∀ s t : State, Inv defaultParams s → step s = .next t → Inv defaultParams t

/-- The same for ANY well-formed microcode and any run of the host: ticks, resets, writes of `pc` and of the bus. In every state the
host can reach from construction, bit 5 of `p` is set, `step` is a valid index in Execute state unless the Instruction is empty, the
placeholder is not executing, and memory is canonical (R6, R32, R45, R138, R155; log 3, log 14). -/
def Obligations.HostRunsFromConstructionKeepTheInvariant : Prop :=
  ∀ (P : Params) (scratch : ScratchInit) (mem : Memory) (ops : List HostOp) (t : State),
    P.WellFormed → Memory.wf mem = true → hostRun P ops (State.new scratch mem) = some t → Inv P t

/-- R21, R22, R23, R38, R39, R40: `a`, `x`, `y` are 0 at construction and no documented tick reads or writes them, nor the scratch registers
`tmp16`, `eff`, `crossed`: a step of the machine with these six replaced is the step of the machine, with the same six replaced. That RESET
leaves `tmp16` and `eff` alone rests on the spec's own choice that its scratch register is `tmp8` (D5, N6; log 10). -/
def Obligations.DocumentedTicksNeitherReadNorWriteHostRegisters : Prop :=
  (∀ (s t : State) (r : HostRegs), step s = .next t → step (s.withHostRegs r) = .next (t.withHostRegs r)) ∧
  (∀ s t : State, s.runReset defaultParams = some t →
    t.cpu.dp.a = s.cpu.dp.a ∧ t.cpu.dp.x = s.cpu.dp.x ∧ t.cpu.dp.y = s.cpu.dp.y ∧
    t.cpu.dp.tmp16 = s.cpu.dp.tmp16 ∧ t.cpu.dp.eff = s.cpu.dp.eff ∧ t.cpu.dp.crossed = s.cpu.dp.crossed) ∧
  (∀ (scratch : ScratchInit) (mem : Memory),
    (State.new scratch mem).cpu.dp.a = 0 ∧ (State.new scratch mem).cpu.dp.x = 0 ∧ (State.new scratch mem).cpu.dp.y = 0)

/-- R26 to R34, the columns "written by documented hardware": a step leaves the whole status byte unchanged unless it is RESET step 1, which
sets irq_disable and unused, clears decimal and leaves the other five. -/
def Obligations.OnlyResetStep1WritesTheStatusByte : Prop :=
  ∀ s t : State, step s = .next t →
    (if s.cpu.ready = false ∧ s.cpu.cur = .reset ∧ s.cpu.step = 0 then
      flagTest irqDisablePos t.cpu.dp.p = true ∧ flagTest unusedPos t.cpu.dp.p = true ∧ flagTest decimalPos t.cpu.dp.p = false ∧
      ∀ q : Fin 8, q ≠ irqDisablePos → q ≠ unusedPos → q ≠ decimalPos → flagTest q t.cpu.dp.p = flagTest q s.cpu.dp.p
    else t.cpu.dp.p = s.cpu.dp.p)

/-- R187, R29, R30: nothing in the documented hardware reads a flag. Two machines that differ in the status byte alone take steps that differ
in the status byte alone. -/
def Obligations.DocumentedTicksNeverReadTheStatusByte : Prop :=
  ∀ (s t : State) (q : Byte), step s = .next t → ∃ q' : Byte, step (s.withStatus q) = .next (t.withStatus q')

/-! ### Memory and the bus: spec/20_memory.md -/

/-- R62: on the flat-RAM bus a read after a write to the address answers the byte written, at every other address what it answered before (so
until another write to the address); the same for a write by the host; and no step of the documented hardware changes any byte or makes a write transaction. -/
def Obligations.ReadAfterWriteAnswersTheByteWritten : Prop :=
  (∀ (bus : Bus) (addr : Word) (v : Byte) (addr' : Word),
    (flatRam.write bus addr v).peek addr' = if addr' = addr then v else bus.peek addr') ∧
  (∀ (s : State) (addr : Word) (v : Byte) (addr' : Word),
    (s.hostWrite addr v).hostRead addr' = if addr' = addr then v else s.hostRead addr') ∧
  (∀ s t : State, step s = .next t →
    (∀ addr : Word, t.hostRead addr = s.hostRead addr) ∧
    ∀ (addr : Word) (v : Byte), t.bus.trace.count (.write addr v) = s.bus.trace.count (.write addr v))

/-- R64 and log 3: a write keeps the canonical form of memory. -/
def Obligations.MemoryWriteKeepsTheCanonicalForm : Prop :=
  ∀ (m : Memory) (addr : Word) (v : Byte), Memory.wf m = true → Memory.wf (Memory.write m addr.toNat v) = true

/-- Log 3: two canonical memories that hold the same written byte at every address are the same data. -/
def Obligations.CanonicalMemoriesWithEqualBytesAreEqual : Prop :=
  ∀ m m' : Memory, Memory.wf m = true → Memory.wf m' = true →
    (∀ addr : Word, Memory.read? m addr.toNat = Memory.read? m' addr.toNat) → m = m'

/-- R79 (D12): with any table, a tick puts at most one transaction on the bus, at the end of the trace. -/
def Obligations.EachTickMakesAtMostOneBusTransaction : Prop :=
  ∀ (P : Params) (s : State), ∃ e : List BusEvent, e.length ≤ 1 ∧ (s.tickWith P).bus.trace = s.bus.trace ++ e

/-- R78: the transactions of every documented tick (that the default no-op makes none is the spec's own choice D7; log 9). -/
def Obligations.TransactionsOfEveryDocumentedTick : Prop :=
  ∀ s t : State, step s = .next t → t.bus.trace = s.bus.trace ++
    (if s.cpu.ready then [.read s.cpu.dp.pc]
    else if s.cpu.cur = .reset then
      (if s.cpu.step ≤ 2 then [.read 0x00FF]
      else if s.cpu.step ≤ 5 then [.read (0x0100 + s.cpu.dp.sp.setWidth 16)]
      else if s.cpu.step = 6 then [.read 0xFFFC]
      else if s.cpu.step = 7 then [.read 0xFFFD]
      else if s.cpu.step = 8 then [.read s.cpu.dp.pc]
      else [])
    else [])

/-- R51, R63: what a tick does to ProcessorState depends on the bus only through the byte the bus answers to the tick's own read, for any
table and any two bus devices. -/
def Obligations.TickDependsOnTheBusOnlyThroughItsAnswer : Prop :=
  ∀ (σ τ : Type) (P : Params) (B : BusDevice σ) (C : BusDevice τ) (c : ProcessorState) (b : σ) (d : τ),
    (∀ addr : Word, (tickCycle P c).events = [.read addr] → (B.read b addr).1 = (C.read d addr).1) →
    (tickOn P B (c, b)).1 = (tickOn P C (c, d)).1

/-- R82: a byte written at `pc` is what the next Fetch latches; but in Execute state of a table row, a write to any address (the instruction's own
opcode byte included) does not change what the step does. -/
def Obligations.WritesAreSeenByTheNextFetchAndNotByTheCurrentInstruction : Prop :=
  (∀ (s : State) (v : Byte), s.cpu.ready = true →
    ∃ t, step (s.hostWrite s.cpu.dp.pc v) = .next t ∧ t.cpu.dp.ir = v ∧ t.cpu.cur = .table v) ∧
  (∀ (s t : State) (addr : Word) (v opcode : Byte), s.cpu.ready = false → s.cpu.cur = .table opcode →
    step s = .next t → step (s.hostWrite addr v) = .next (t.hostWrite addr v))

/-! ### Encoding: spec/30_encoding.md -/

/-- Opcode bytes written out from format `OP8` (R90: `opcode[7:0]` is bits 7..0 of the one byte) decode to the no-op that holds them. -/
def Obligations.WrittenOutOpcodeBytesDecode : Prop :=
  decode [0b00000000] = .ok (.nop 0x00, []) ∧ decode [0b11101010] = .ok (.nop 0xEA, []) ∧
  decode [0b11111111, 0b00010001] = .ok (.nop 0xFF, [0x11]) ∧ decode [] = .error .noOpcodeByte ∧
  decodeTableWord 8 0xEA = some (.nop 0xEA) ∧ decodeTableWord 8 0xA9 = some (.nop 0xA9)

/-- R90, R91, R101: every byte is a legal opcode of one byte; decoding inverts encoding for every well-formed instruction, and encoding inverts
decoding for every list of bytes that decodes. -/
def Obligations.DecodingAndEncodingAgreeOnEveryByte : Prop :=
  (∀ (b : Byte) (rest : List Byte), decode (b :: rest) = .ok (.nop b, rest)) ∧
  (∀ (i : Instr) (rest : List Byte), i.wf = true → (encode i).length = 1 ∧ decode (encode i ++ rest) = .ok (i, rest)) ∧
  (∀ (bytes : List Byte) (i : Instr) (rest : List Byte), decode bytes = .ok (i, rest) → encode i ++ rest = bytes)

/-- R99, R152, R157: the table of `new()` holds the default no-op at every opcode; populating one entry changes that entry alone; installing the
no-op at 0xEA changes nothing. -/
def Obligations.DefaultTableIsTheNoOpAtEveryOpcode : Prop :=
  (∀ b : Byte, defaultTable b = nopInstruction) ∧
  (∀ (T : Table) (opcode : Byte) (ins : Instruction) (b : Byte),
    T.install opcode ins b = if b = opcode then ins else T b) ∧
  defaultTable.install 0xEA nopInstruction = defaultTable

/-! ### Flags, stack pointer, program counter: spec/40_flags_and_stack_ops.md -/

/-- R110, R111 (C4): setting or clearing a bit writes exactly that bit. Positions above 7 are refused (D10; log 15). -/
def Obligations.SetAndClearWriteExactlyOneBit : Prop :=
  (∀ (pos q : Fin 8) (p : Byte), flagTest q (setFlagBit pos p) = if q = pos then true else flagTest q p) ∧
  (∀ (pos q : Fin 8) (p : Byte), flagTest q (clearFlagBit pos p) = if q = pos then false else flagTest q p) ∧
  (∀ pos : Nat, flagPosition? pos = none ↔ 7 < pos)

/-- R112, R35: the bit test on the raw byte and the named booleans of the decomposed view give the same answer, `(p >> pos) & 1`. That the view
has an eighth boolean for bit 5, which carries the bit as stored, is the spec's own choice (D27, D9; log 21). -/
def Obligations.TheTwoFlagViewsAgree : Prop :=
  (∀ (pos : Fin 8) (p : Byte), flagTest pos p = decide ((p >>> pos.val) &&& 1 = 1)) ∧
  (∀ p : Byte, (fromByte p).carry = flagTest 0 p ∧ (fromByte p).zero = flagTest 1 p ∧ (fromByte p).irqDisable = flagTest 2 p ∧
    (fromByte p).decimal = flagTest 3 p ∧ (fromByte p).brk = flagTest 4 p ∧ (fromByte p).unused = flagTest 5 p ∧
    (fromByte p).overflow = flagTest 6 p ∧ (fromByte p).negative = flagTest 7 p)

/-- R114: `to_byte` packs each boolean at its own position. That one of the eight stands for bit 5, which is not forced, is the spec's own choice
(D27, D9; log 21). -/
def Obligations.ToBytePacksEachFlagAtItsOwnPosition : Prop :=
  ∀ f : Flags, flagTest 0 (toByte f) = f.carry ∧ flagTest 1 (toByte f) = f.zero ∧ flagTest 2 (toByte f) = f.irqDisable ∧
    flagTest 3 (toByte f) = f.decimal ∧ flagTest 4 (toByte f) = f.brk ∧ flagTest 5 (toByte f) = f.unused ∧
    flagTest 6 (toByte f) = f.overflow ∧ flagTest 7 (toByte f) = f.negative

/-- R115, R116 (C3, D9, D27; log 21): the conversions are mutual inverses and never force bit 5; forcing it is a separate operation that sets
bit 5 and nothing else. -/
def Obligations.ConversionsAreInversesAndForcingIsSeparate : Prop :=
  (∀ b : Byte, toByte (fromByte b) = b) ∧ (∀ f : Flags, fromByte (toByte f) = f) ∧
  (∀ (b : Byte) (q : Fin 8), flagTest q (forceUnused b) = if q = unusedPos then true else flagTest q b)

/-- R117: `to_address(sp) = 0x0100 + sp`, never below 0x0100 nor above 0x01FF, the high byte fixed at 0x01. -/
def Obligations.StackAddressIsTheStackPagePlusSp : Prop :=
  ∀ sp : Byte, (stackAddress sp).toNat = 0x0100 + sp.toNat ∧ stackAddress sp = 0x0100 ||| sp.setWidth 16 ∧
    0x0100 ≤ (stackAddress sp).toNat ∧ (stackAddress sp).toNat ≤ 0x01FF

/-- R118, R119: decrement and increment wrap modulo 256, undo each other, and never leave the stack page; 256 decrements return `sp` to its
start. They are functions of `sp` alone and touch no flag. -/
def Obligations.StackPointerWrapsWithinTheStackPage : Prop :=
  (∀ sp : Byte, ((spDecrement sp).toNat : Int) = ((sp.toNat : Int) - 1) % 256) ∧
  (∀ sp : Byte, (spIncrement sp).toNat = (sp.toNat + 1) % 256) ∧
  (∀ sp : Byte, spIncrement (spDecrement sp) = sp ∧ spDecrement (spIncrement sp) = sp) ∧
  stackAddress (spDecrement 0x00) = 0x01FF ∧ stackAddress (spIncrement 0xFF) = 0x0100 ∧
  (∀ sp : Byte, Nat.iterate spDecrement 256 sp = sp)

/-- R120: `pc <- (pc + 1) mod 65536`; 0xFFFF is followed by 0x0000. -/
def Obligations.ProgramCounterIncrementWraps : Prop :=
  (∀ pc : Word, (pcIncrement pc).toNat = (pc.toNat + 1) % 65536) ∧ pcIncrement 0xFFFF = 0x0000

/-- R121: `(high << 8) | low` is `high * 256 + low`. -/
def Obligations.WordAssemblyPlacesTheTwoBytes : Prop :=
  ∀ high low : Byte, (wordOf high low).toNat = high.toNat * 256 + low.toNat ∧
    wordOf high low = (high.setWidth 16 <<< 8) ||| low.setWidth 16

/-- R123: on flat RAM a push and then a pull give the byte back, restore `sp`, and change no byte of memory but the one at the stack
address (the order of the pull is PRESUMED: G5, log 13). -/
def Obligations.PushThenPullGivesTheByteBack : Prop :=
  ∀ (bus : Bus) (dp : Datapath) (v : Byte),
    let pushed := (stackPush dp v fun dp' => Effect.done dp' .advance).runOn flatRam bus
    let pulled := (stackPull pushed.1.dp fun b dp' => Effect.done { dp' with a := b } .complete).runOn flatRam pushed.2
    pulled.1.dp = { dp with a := v } ∧
    ∀ addr : Word, addr ≠ stackAddress dp.sp → pulled.2.peek addr = bus.peek addr

/-! ### The sequencer: spec/41_sequencer_tick.md -/

/-- R130: one step is one tick; a tick is total and does exactly one of the two phases. -/
def Obligations.StepIsExactlyOnePhaseOfTick : Prop :=
  ∀ s : State,
    step s = .next (s.tickWith defaultParams) ∧
    (s.cpu.ready = true → s.tickWith defaultParams = s.runCycle (fetchCycle s.cpu)) ∧
    (s.cpu.ready = false →
      s.tickWith defaultParams = s.runCycle (executeCycle none (defaultParams.instructionOf s.cpu.cur) s.cpu))

/-- R131, with any table and any bus: one read at the old `pc`; `pc`, `ir`, `cur`, `step`, `ready` are written and nothing else; no clamp. -/
def Obligations.FetchPhaseLatchesTheOpcode : Prop :=
  ∀ (σ : Type) (P : Params) (B : BusDevice σ) (c : ProcessorState) (bus : σ), c.ready = true →
    tickOn P B (c, bus) =
      ({ dp := { c.dp with pc := c.dp.pc + 1, ir := (B.read bus c.dp.pc).1 }
         cur := .table (B.read bus c.dp.pc).1, step := 0, ready := false },
       (B.read bus c.dp.pc).2) ∧
    P.instructionOf (.table (B.read bus c.dp.pc).1) = P.table (B.read bus c.dp.pc).1

/-- R133: a micro-operation that returns Advance: its own effects, then `step + 1`; from the last entry the clamp ends the instruction with `step`
one past the end. -/
def Obligations.AdvanceMovesToTheNextMicroOperation : Prop :=
  ∀ (σ : Type) (P : Params) (B : BusDevice σ) (c : ProcessorState) (bus bus' : σ) (μ : MicroOp) (e : Effect),
    P.stepBits = none → c.ready = false → (P.instructionOf c.cur).seq[c.step]? = some μ →
    (μ c).runOn B bus = (e, bus') → e.ctl = .advance →
    tickOn P B (c, bus) =
      ({ dp := e.dp, cur := c.cur, step := c.step + 1
         ready := e.setReady || decide (c.step + 1 = (P.instructionOf c.cur).seq.length) }, bus')

/-- R134: a micro-operation that returns Complete, wherever it stands in the sequence: its own effects, then `ready`; `step` and `cur` stay. -/
def Obligations.CompleteReturnsToFetchState : Prop :=
  ∀ (σ : Type) (P : Params) (B : BusDevice σ) (c : ProcessorState) (bus bus' : σ) (μ : MicroOp) (e : Effect),
    c.ready = false → (P.instructionOf c.cur).seq[c.step]? = some μ →
    (μ c).runOn B bus = (e, bus') → e.ctl = .complete →
    tickOn P B (c, bus) = ({ dp := e.dp, cur := c.cur, step := c.step, ready := true }, bus')

/-- R135 (an out-of-range target is D25): a micro-operation that returns Branch(n), forward, backward or to itself: its own effects, then `step <- n`; a
target past the end ends the instruction through the clamp. `pc` is only what the micro-operation itself made it. -/
def Obligations.BranchJumpsWithinTheMicrocode : Prop :=
  ∀ (σ : Type) (P : Params) (B : BusDevice σ) (c : ProcessorState) (bus bus' : σ) (μ : MicroOp) (e : Effect) (n : Nat),
    P.stepBits = none → c.ready = false → (P.instructionOf c.cur).seq[c.step]? = some μ →
    (μ c).runOn B bus = (e, bus') → e.ctl = .branch n →
    tickOn P B (c, bus) =
      ({ dp := e.dp, cur := c.cur, step := n
         ready := e.setReady || decide ((P.instructionOf c.cur).seq.length ≤ n) }, bus')

/-- R136, R45: after every Execute tick, of any microcode and any width of `step`, a `step` at or past the end has `ready` set; `cur` is unchanged. -/
def Obligations.ClampHoldsAfterEveryExecuteTick : Prop :=
  ∀ (σ : Type) (P : Params) (B : BusDevice σ) (c : ProcessorState) (bus : σ), c.ready = false →
    (tickOn P B (c, bus)).1.cur = c.cur ∧
    ((P.instructionOf c.cur).seq.length ≤ (tickOn P B (c, bus)).1.step → (tickOn P B (c, bus)).1.ready = true)

/-- R137: an Execute tick that begins with `step` out of range makes no transaction, changes no register, and sets `ready`. -/
def Obligations.OutOfRangeExecuteTickIsSpent : Prop :=
  ∀ (σ : Type) (P : Params) (B : BusDevice σ) (c : ProcessorState) (bus : σ),
    c.ready = false → (P.instructionOf c.cur).seq.length ≤ c.step →
    tickOn P B (c, bus) = ({ c with ready := true }, bus)

/-- R140, R229: an Instruction whose micro-operations all run once costs one Fetch tick and one Execute tick for each: `ready` is false after
each tick but the last, and `step` is left at the index of the last entry (R141). That the fetch is a tick of its own beside the entries is the spec's own
resolution (C5, D28; log 24). -/
def Obligations.StraightLineInstructionTakesOneTickPerEntryAfterTheFetch : Prop :=
  ∀ (P : Params) (s : State),
    let ins := P.table (s.hostRead s.cpu.dp.pc)
    P.stepBits = none → s.cpu.ready = true → ins.seq ≠ [] → ins.StraightLine →
    (∀ n, 1 ≤ n → n ≤ ins.seq.length → (s.ticksWith P n).cpu.ready = false ∧ (s.ticksWith P n).cpu.step = n - 1) ∧
    (s.ticksWith P (1 + ins.seq.length)).cpu.ready = true ∧
    (s.ticksWith P (1 + ins.seq.length)).cpu.step = ins.seq.length - 1

/-- R144: an instruction none of whose micro-operations ends it never ends: `ready` stays false and `cur` stays the same after any number of ticks,
and every tick still answers. -/
def Obligations.EndlessMicrocodeNeverReturnsToFetch : Prop :=
  ∀ (P : Params) (s : State) (n : Nat),
    P.stepBits = none → s.cpu.ready = false → s.cpu.step < (P.instructionOf s.cpu.cur).seq.length →
    (P.instructionOf s.cpu.cur).Endless →
    (s.ticksWith P n).cpu.ready = false ∧ (s.ticksWith P n).cpu.cur = s.cpu.cur

/-- D6: a finite step counter that can hold every index of the sequence, its length and every Branch target behaves as the unbounded one. -/
def Obligations.WideEnoughStepCounterBehavesAsUnbounded : Prop :=
  ∀ (σ : Type) (P : Params) (k : Nat) (B : BusDevice σ) (c : ProcessorState) (bus : σ),
    (P.instructionOf c.cur).seq.length < 2 ^ k →
    (∀ (j : Nat) (μ : MicroOp), (P.instructionOf c.cur).seq[j]? = some μ →
      (μ c).Always fun e => ∀ n, e.ctl = .branch n → n < 2 ^ k) →
    tickOn { P with stepBits := some k } B (c, bus) = tickOn { P with stepBits := none } B (c, bus)

/-! ### The default no-op: spec/42_microcode_table.md -/

/-- R131, R153: in Fetch state, NOP's first cycle completes and latches its opcode, in every state and for all 256 opcodes. -/
def Obligations.NopFetchCycleCompletes : Prop :=
  ∀ (opcode : Byte) (s : State), s.cpu.ready = true →
    exec (.nop opcode) s = .next
      { cpu := { dp := { s.cpu.dp with pc := s.cpu.dp.pc + 1, ir := opcode }, cur := .table opcode, step := 0, ready := false }
        bus := s.bus }

/-- R153, R134 (that the micro-operation does nothing else is the spec's own choice D7; log 9): in Execute state, at any `step`, NOP's cycle
completes and changes `ready` alone. -/
def Obligations.NopExecuteCycleCompletes : Prop :=
  ∀ (opcode : Byte) (s : State), s.cpu.ready = false →
    exec (.nop opcode) s = .next { s with cpu := { s.cpu with ready := true } }

/-- R153 (D7; log 9): what NOP leaves unchanged: `a`, `x`, `y`, `sp`, the whole status byte and each flag, every scratch register, every byte of memory, the
trace. `pc`, `ir`, `cur`, `step` and `ready` may change. -/
def Obligations.NopLeavesEverythingElseUnchanged : Prop :=
  ∀ (opcode : Byte) (s t : State), exec (.nop opcode) s = .next t →
    t.cpu.dp.a = s.cpu.dp.a ∧ t.cpu.dp.x = s.cpu.dp.x ∧ t.cpu.dp.y = s.cpu.dp.y ∧ t.cpu.dp.sp = s.cpu.dp.sp ∧
    t.cpu.dp.p = s.cpu.dp.p ∧ (∀ q : Fin 8, flagTest q t.cpu.dp.p = flagTest q s.cpu.dp.p) ∧
    t.cpu.dp.tmp8 = s.cpu.dp.tmp8 ∧ t.cpu.dp.tmp16 = s.cpu.dp.tmp16 ∧ t.cpu.dp.eff = s.cpu.dp.eff ∧
    t.cpu.dp.crossed = s.cpu.dp.crossed ∧ (∀ addr : Word, t.hostRead addr = s.hostRead addr) ∧ t.bus.trace = s.bus.trace

/-- R153 (D7; log 9): the net effect of the instruction in its two ticks. -/
def Obligations.NopInstructionNetEffectInTwoTicks : Prop :=
  ∀ s : State, s.cpu.ready = true →
    runSteps 2 s = .next
      { cpu := { dp := { s.cpu.dp with pc := s.cpu.dp.pc + 1, ir := s.hostRead s.cpu.dp.pc }
                 cur := .table (s.hostRead s.cpu.dp.pc), step := 0, ready := true }
        bus := { s.bus with trace := s.bus.trace ++ [.read s.cpu.dp.pc] } }

/-- In Fetch state the step is one bus read at `pc` and then `exec` of the instruction that the byte there decodes to. -/
def Obligations.FetchStepRunsTheDecodedInstruction : Prop :=
  ∀ (s : State) (i : Instr), s.cpu.ready = true → decode [s.hostRead s.cpu.dp.pc] = .ok (i, []) → i.wf = true →
    step s = exec i { s with bus := { s.bus with trace := s.bus.trace ++ [.read s.cpu.dp.pc] } }

/-- In Execute state the step is `exec` of the instruction whose row `cur` selects; a row no opcode selects runs its own cycle. -/
def Obligations.ExecuteStepRunsTheSelectedInstruction : Prop :=
  (∀ (s : State) (opcode : Byte) (i : Instr), s.cpu.ready = false → s.cpu.cur = .table opcode →
    decode [opcode] = .ok (i, []) → i.wf = true → step s = exec i s) ∧
  (∀ s : State, s.cpu.ready = false → s.cpu.cur = .reset →
    step s = .next (s.runCycle (executeCycle none resetInstruction s.cpu))) ∧
  (∀ s : State, s.cpu.ready = false → s.cpu.cur = .placeholder → step s = .next { s with cpu := { s.cpu with ready := true } })

/-- R153, R140, R229 (D7; log 9): with the default table every program is a run of no-ops. From any Fetch state, after 2n ticks `pc` has advanced by n
modulo 65536, the bus saw exactly the n opcode reads in order and no write, `ir` is the last opcode read, the machine is in Fetch state, and no other field of the datapath and no byte of memory
changed (`cur` and `step` do change; NopInstructionNetEffectInTwoTicks gives them for one instruction). -/
def Obligations.EveryDefaultProgramIsARunOfNoOps : Prop :=
  ∀ (n : Nat) (s : State), s.cpu.ready = true →
    ∃ t, runSteps (2 * n) s = .next t ∧ t.cpu.ready = true ∧
      t.cpu.dp = { s.cpu.dp with
        pc := s.cpu.dp.pc + BitVec.ofNat 16 n
        ir := if n = 0 then s.cpu.dp.ir else s.hostRead (s.cpu.dp.pc + BitVec.ofNat 16 (n - 1)) } ∧
      t.bus.mem = s.bus.mem ∧
      t.bus.trace = s.bus.trace ++ (List.range n).map fun k => BusEvent.read (s.cpu.dp.pc + BitVec.ofNat 16 k)

/-- R158 (a), (c), R220: in a tidy Instruction the clamp is never what ends it: after an Execute tick that began in range, `step` is still in range. -/
def Obligations.ClampNeverFiresInTidyMicrocode : Prop :=
  ∀ (σ : Type) (P : Params) (B : BusDevice σ) (c : ProcessorState) (bus : σ),
    P.stepBits = none → c.ready = false → (P.instructionOf c.cur).Tidy → c.step < (P.instructionOf c.cur).seq.length →
    (tickOn P B (c, bus)).1.step < (P.instructionOf c.cur).seq.length

/-! ### RESET: spec/43_reset_microcode.md -/

/-- R167: RESET step 1. -/
def Obligations.ResetStep1ClearsSpAndIrAndSetsTheFlags : Prop :=
  ∀ s : State, s.cpu.ready = false → s.cpu.cur = .reset → s.cpu.step = 0 →
    step s = .next
      { cpu := { s.cpu with dp := { s.cpu.dp with sp := 0x00, ir := 0x00, p := (s.cpu.dp.p ||| 0x24) &&& 0xF7 }, step := 1 }
        bus := { s.bus with trace := s.bus.trace ++ [.read 0x00FF] } }

/-- R168, R169: RESET steps 2 and 3 read 0x00FF, discard the byte and change no register. -/
def Obligations.ResetSteps2And3ReadAndDiscard : Prop :=
  ∀ s : State, s.cpu.ready = false → s.cpu.cur = .reset → (s.cpu.step = 1 ∨ s.cpu.step = 2) →
    step s = .next
      { cpu := { s.cpu with step := s.cpu.step + 1 }
        bus := { s.bus with trace := s.bus.trace ++ [.read 0x00FF] } }

/-- R170, R171, R172: RESET steps 4 to 6 read at the stack address before the decrement, discard the byte, and decrement `sp`; nothing is written. -/
def Obligations.ResetSteps4To6SuppressThePushes : Prop :=
  ∀ s : State, s.cpu.ready = false → s.cpu.cur = .reset → (s.cpu.step = 3 ∨ s.cpu.step = 4 ∨ s.cpu.step = 5) →
    step s = .next
      { cpu := { s.cpu with dp := { s.cpu.dp with sp := s.cpu.dp.sp - 1 }, step := s.cpu.step + 1 }
        bus := { s.bus with trace := s.bus.trace ++ [.read (0x0100 + s.cpu.dp.sp.setWidth 16)] } }

/-- R173 (that the scratch register is `tmp8` is the spec's own choice D5; log 10): RESET step 7. -/
def Obligations.ResetStep7ReadsTheVectorLowByte : Prop :=
  ∀ s : State, s.cpu.ready = false → s.cpu.cur = .reset → s.cpu.step = 6 →
    step s = .next
      { cpu := { s.cpu with dp := { s.cpu.dp with tmp8 := s.hostRead 0xFFFC }, step := 7 }
        bus := { s.bus with trace := s.bus.trace ++ [.read 0xFFFC] } }

/-- R174 (that the scratch register is `tmp8` is the spec's own choice D5; log 10): RESET step 8 loads all of `pc`: the byte at 0xFFFD above `tmp8`. -/
def Obligations.ResetStep8LoadsThePcFromTheVector : Prop :=
  ∀ s : State, s.cpu.ready = false → s.cpu.cur = .reset → s.cpu.step = 7 →
    step s = .next
      { cpu := { s.cpu with
          dp := { s.cpu.dp with pc := ((s.hostRead 0xFFFD).setWidth 16 <<< 8) ||| s.cpu.dp.tmp8.setWidth 16 }, step := 8 }
        bus := { s.bus with trace := s.bus.trace ++ [.read 0xFFFD] } }

/-- R175: RESET step 9 reads the byte at `pc` into `ir`, increments `pc`, and ends in Fetch state with `cur` and `step` as they were. -/
def Obligations.ResetStep9ReadsTheOpcodeAndEnds : Prop :=
  ∀ s : State, s.cpu.ready = false → s.cpu.cur = .reset → s.cpu.step = 8 →
    step s = .next
      { cpu := { s.cpu with
          dp := { s.cpu.dp with ir := s.hostRead s.cpu.dp.pc, pc := s.cpu.dp.pc + 1 }, ready := true }
        bus := { s.bus with trace := s.bus.trace ++ [.read s.cpu.dp.pc] } }

/-- R177, R178, R179: `reset()` from ANY state, in Fetch or in the middle of an instruction: every field after it, and the nine reads in order (`tmp8` is D5, log 10;
that `pc` is the vector plus one is C2, log 11). -/
def Obligations.ResetFromAnyStateLeavesTheDocumentedState : Prop :=
  ∀ s : State,
    let V : Word := wordOf (s.hostRead 0xFFFD) (s.hostRead 0xFFFC)
    s.runReset defaultParams = some
      { cpu :=
          { dp := { s.cpu.dp with
              sp := 0xFD, pc := V + 1, ir := s.hostRead V, p := (s.cpu.dp.p ||| 0x24) &&& 0xF7, tmp8 := s.hostRead 0xFFFC }
            cur := .reset, step := 8, ready := true }
        bus := { s.bus with trace := s.bus.trace ++
          [.read 0x00FF, .read 0x00FF, .read 0x00FF, .read 0x0100, .read 0x01FF, .read 0x01FE,
            .read 0xFFFC, .read 0xFFFD, .read V] } }

/-- R177 on ANY bus device, whose reads may have side effects, with any populated table and any step counter that can hold 8: the bus goes through
exactly the nine reads, and the vector and the opcode are the bytes it answered when the sequence read them (D5, log 10; C2, log 11). -/
def Obligations.ResetOnAnyBusAndAnyTable : Prop :=
  ∀ (σ : Type) (P : Params) (B : BusDevice σ) (c : ProcessorState) (bus : σ), StepBits.holds P.stepBits 8 = true →
    let b1 := (B.read bus 0x00FF).2
    let b2 := (B.read b1 0x00FF).2
    let b3 := (B.read b2 0x00FF).2
    let b4 := (B.read b3 0x0100).2
    let b5 := (B.read b4 0x01FF).2
    let b6 := (B.read b5 0x01FE).2
    let lo := B.read b6 0xFFFC
    let hi := B.read lo.2 0xFFFD
    let V := wordOf hi.1 lo.1
    let op := B.read hi.2 V
    resetOn P B 9 (c, bus) = some
      ({ dp := { c.dp with sp := 0xFD, pc := V + 1, ir := op.1, p := (c.dp.p ||| 0x24) &&& 0xF7, tmp8 := lo.1 }
         cur := .reset, step := 8, ready := true }, op.2)

/-- R165, R176: the loop of `reset()` ends after exactly nine ticks, from every state, on every bus: fewer do not end it, and more fuel changes nothing. -/
def Obligations.ResetEndsAfterExactlyNineTicks : Prop :=
  ∀ (σ : Type) (P : Params) (B : BusDevice σ) (m : ProcessorState × σ), StepBits.holds P.stepBits 8 = true →
    (∀ n, n < 9 → resetOn P B n m = none) ∧ (∀ n, 9 ≤ n → (resetOn P B n m).isSome = true ∧ resetOn P B n m = resetOn P B 9 m)

/-- R180 (C2; log 11): the first opcode fetched after `reset()` is the one at the vector plus one; the byte at the vector is in `ir` and is not executed. -/
def Obligations.FirstFetchAfterResetIsAtTheVectorPlusOne : Prop :=
  ∀ s t : State, s.runReset defaultParams = some t →
    let V : Word := wordOf (s.hostRead 0xFFFD) (s.hostRead 0xFFFC)
    t.cpu.dp.ir = s.hostRead V ∧
    ∃ u, step t = .next u ∧ u.bus.trace = t.bus.trace ++ [.read (V + 1)] ∧ u.cpu.dp.ir = s.hostRead (V + 1) ∧
      u.cpu.cur = .table (s.hostRead (V + 1)) ∧ u.cpu.dp.pc = V + 2 ∧ u.cpu.step = 0 ∧ u.cpu.ready = false

/-- R213 (C1, C2; D5): a fresh machine over any memory with the vector 0x8000. -/
def Obligations.ResetOfAFreshMachineIsDeterministic : Prop :=
  ∀ (scratch : ScratchInit) (mem : Memory) (t : State),
    (State.new scratch mem).hostRead 0xFFFC = 0x00 → (State.new scratch mem).hostRead 0xFFFD = 0x80 →
    (State.new scratch mem).runReset defaultParams = some t →
    t.cpu.dp.pc = 0x8001 ∧ t.cpu.dp.sp = 0xFD ∧ t.cpu.dp.p = 0x24 ∧ t.cpu.dp.a = 0 ∧ t.cpu.dp.x = 0 ∧ t.cpu.dp.y = 0 ∧
    t.cpu.dp.ir = (State.new scratch mem).hostRead 0x8000 ∧ t.cpu.dp.tmp8 = 0x00 ∧ t.cpu.step = 8 ∧ t.cpu.ready = true ∧
    flagTest irqDisablePos t.cpu.dp.p = true ∧ flagTest unusedPos t.cpu.dp.p = true ∧ flagTest decimalPos t.cpu.dp.p = false

/-- R48, R223: RESET reads nothing that it has not written: whatever `tmp8`, `sp`, `ir` and `pc`, the three flags RESET writes (bits 2, 3 and 5 of `p`),
`cur`, `step` and `ready` held, `reset()` ends in the same state. That `tmp8` is among the overwritten registers is the spec's own choice (D5; log 10). -/
def Obligations.ResetDoesNotDependOnTheValuesItOverwrites : Prop :=
  ∀ (s : State) (tmp8 sp ir q : Byte) (pc : Word) (cur : MicroRow) (k : Nat) (ready : Bool),
    State.runReset defaultParams
      { s with cpu :=
          { dp := { s.cpu.dp with
              tmp8 := tmp8, sp := sp, ir := ir, pc := pc, p := (s.cpu.dp.p &&& 0xD3) ||| (q &&& 0x2C) }
            cur := cur, step := k, ready := ready } } =
      s.runReset defaultParams

/-! ### The host: spec/00_scope.md R6, spec/70_reset_and_hazards.md -/

/-- R6, R227 (D18; log 16): the host may write `pc` in Fetch state, which changes `pc` alone and makes the next fetch read there (R211); it has no such move in
Execute state. -/
def Obligations.HostWritesThePcInFetchStateOnly : Prop :=
  (∀ (s : State) (v : Word), s.cpu.ready = true →
    s.hostSetPc v = some { s with cpu := { s.cpu with dp := { s.cpu.dp with pc := v } } } ∧
    ∀ t u, s.hostSetPc v = some t → step t = .next u → u.cpu.dp.ir = s.hostRead v ∧ u.bus.trace = s.bus.trace ++ [.read v]) ∧
  (∀ (s : State) (v : Word), s.cpu.ready = false → s.hostSetPc v = none)

/-- R32, R45, R138, R155 and the canonical form of memory (log 3, log 14), for ANY well-formed microcode and ANY width of the step counter: from EVERY
state that meets the invariant, a move of the host (a tick, `reset()`, a write of `pc` or of the bus; R6) gives a state that meets it. -/
def Obligations.HostStepKeepsTheInvariant : Prop :=
  ∀ (P : Params) (s t : State) (op : HostOp),
    P.WellFormed → Inv P s → hostStep P op s = some t → Inv P t
end

