-- ==== Sys2Proof/Laws/Bus.lean ====
section
/-! SUPPORT. The laws of memory, of the flat-RAM bus and of bus cycles. -/

namespace Sys2Proof.Machine

/-! ### Memory -/

theorem Memory.read?_write (m : Memory) (addr : Nat) (v : Byte) (addr' : Nat) :
    Memory.read? (Memory.write m addr v) addr' = if addr' = addr then some v else Memory.read? m addr' := by
  induction m with
  | nil => simp [Memory.write, Memory.read?]
  | cons cell m ih =>
    obtain ⟨k, w⟩ := cell
    simp only [Memory.write]
    split
    · simp [Memory.read?]
    · split
      · subst_vars
        by_cases h : addr' = k <;> simp [Memory.read?, h]
      · rename_i h
        by_cases h' : addr' = k
        · subst h'
          simp [Memory.read?, Ne.symm h]
        · simp [Memory.read?, h', ih]

theorem Memory.risingFrom_mono {low low' : Nat} (h : low' ≤ low) (m : Memory) (hm : Memory.risingFrom low m = true) :
    Memory.risingFrom low' m = true := by
  cases m with
  | nil => rfl
  | cons cell m =>
    obtain ⟨k, w⟩ := cell
    simp only [Memory.risingFrom, Bool.and_eq_true, decide_eq_true_eq] at hm ⊢
    exact ⟨⟨h.trans hm.1.1, hm.1.2⟩, hm.2⟩

theorem Memory.risingFrom_write (low : Nat) (m : Memory) (addr : Nat) (v : Byte)
    (hm : Memory.risingFrom low m = true) (hlow : low ≤ addr) (haddr : addr < 65536) :
    Memory.risingFrom low (Memory.write m addr v) = true := by
  induction m generalizing low with
  | nil => simp [Memory.write, Memory.risingFrom, hlow, haddr]
  | cons cell m ih =>
    obtain ⟨k, w⟩ := cell
    simp only [Memory.risingFrom, Bool.and_eq_true, decide_eq_true_eq] at hm
    simp only [Memory.write]
    split
    · simp only [Memory.risingFrom, Bool.and_eq_true, decide_eq_true_eq]
      exact ⟨⟨hlow, haddr⟩, ⟨by omega, hm.1.2⟩, hm.2⟩
    · split
      · subst_vars
        simp only [Memory.risingFrom, Bool.and_eq_true, decide_eq_true_eq]
        exact ⟨⟨hlow, haddr⟩, hm.2⟩
      · simp only [Memory.risingFrom, Bool.and_eq_true, decide_eq_true_eq]
        exact ⟨hm.1, ih (k + 1) hm.2 (by omega)⟩

/-- An address below the bound of a rising memory is not listed. -/
theorem Memory.read?_of_lt {low : Nat} (m : Memory) (hm : Memory.risingFrom low m = true) {addr : Nat} (h : addr < low) :
    Memory.read? m addr = none := by
  induction m generalizing low with
  | nil => rfl
  | cons cell m ih =>
    obtain ⟨k, w⟩ := cell
    simp only [Memory.risingFrom, Bool.and_eq_true, decide_eq_true_eq] at hm
    have hk : addr ≠ k := by omega
    simp [Memory.read?, hk, ih hm.2 (by omega)]

/-! ### The flat-RAM bus -/

@[simp] theorem Bus.poke_trace (bus : Bus) (addr : Word) (v : Byte) : (bus.poke addr v).trace = bus.trace := rfl

@[simp] theorem Bus.poke_mem (bus : Bus) (addr : Word) (v : Byte) :
    (bus.poke addr v).mem = Memory.write bus.mem addr.toNat v := rfl

/-- Only the memory decides what a read answers. -/
theorem Bus.peek_congr {bus bus' : Bus} (h : bus.mem = bus'.mem) (addr : Word) : bus.peek addr = bus'.peek addr := by
  simp [Bus.peek, h]

/-- What a read answers after a byte has been put in. -/
theorem Bus.peek_poke (bus : Bus) (addr : Word) (v : Byte) (addr' : Word) :
    (bus.poke addr v).peek addr' = if addr' = addr then v else bus.peek addr' := by
  simp only [Bus.peek, Bus.poke_mem, Memory.read?_write, BitVec.toNat_inj]
  by_cases h : addr' = addr <;> simp [h]

@[simp] theorem flatRam_read_fst (bus : Bus) (addr : Word) : (flatRam.read bus addr).1 = bus.peek addr := rfl

@[simp] theorem flatRam_read_snd (bus : Bus) (addr : Word) :
    (flatRam.read bus addr).2 = { bus with trace := bus.trace ++ [.read addr] } := rfl

@[simp] theorem flatRam_write_mem (bus : Bus) (addr : Word) (v : Byte) :
    (flatRam.write bus addr v).mem = Memory.write bus.mem addr.toNat v := rfl

@[simp] theorem flatRam_write_trace (bus : Bus) (addr : Word) (v : Byte) :
    (flatRam.write bus addr v).trace = bus.trace ++ [.write addr v] := rfl

/-! ### Bus cycles -/

@[simp] theorem BusCycle.runOn_quiet {α σ : Type} (B : BusDevice σ) (bus : σ) (r : α) :
    (BusCycle.quiet r).runOn B bus = (r, bus) := rfl

@[simp] theorem BusCycle.runOn_read {α σ : Type} (B : BusDevice σ) (bus : σ) (addr : Word) (k : Byte → α) :
    (BusCycle.read addr k).runOn B bus = (k (B.read bus addr).1, (B.read bus addr).2) := rfl

@[simp] theorem BusCycle.runOn_write {α σ : Type} (B : BusDevice σ) (bus : σ) (addr : Word) (v : Byte) (r : α) :
    (BusCycle.write addr v r).runOn B bus = (r, B.write bus addr v) := rfl

/-- Passing the result through a function does not change the transaction. -/
@[simp] theorem BusCycle.runOn_map {α β σ : Type} (f : α → β) (c : BusCycle α) (B : BusDevice σ) (bus : σ) :
    (c.map f).runOn B bus = (f (c.runOn B bus).1, (c.runOn B bus).2) := by
  cases c <;> rfl

@[simp] theorem BusCycle.events_map {α β : Type} (f : α → β) (c : BusCycle α) : (c.map f).events = c.events := by
  cases c <;> rfl

theorem BusCycle.length_events_le_one {α : Type} (c : BusCycle α) : c.events.length ≤ 1 := by
  cases c <;> simp [BusCycle.events]

/-- What always holds of a cycle's result holds of the result on any bus. -/
theorem BusCycle.Always.runOn {α σ : Type} {q : α → Prop} {c : BusCycle α} (h : c.Always q) (B : BusDevice σ) (bus : σ) :
    q (c.runOn B bus).1 := by
  cases c with
  | quiet r => exact h
  | read addr k => exact h _
  | write addr v r => exact h

/-- On flat RAM the trace grows by exactly the cycle's transaction. -/
theorem BusCycle.runOn_flatRam_trace {α : Type} (c : BusCycle α) (bus : Bus) :
    (c.runOn flatRam bus).2.trace = bus.trace ++ c.events := by
  cases c <;> simp [BusCycle.events]

/-- One cycle on flat RAM keeps the memory's canonical form. -/
theorem BusCycle.runOn_flatRam_wf {α : Type} (c : BusCycle α) (bus : Bus) (h : Memory.wf bus.mem = true) :
    Memory.wf (c.runOn flatRam bus).2.mem = true := by
  cases c with
  | quiet r => exact h
  | read addr k => exact h
  | write addr v r => exact Memory.risingFrom_write 0 bus.mem addr.toNat v h (Nat.zero_le _) addr.isLt

end Sys2Proof.Machine
end

