-- ==== Sys2Proof/Laws/Flags.lean ====
section
/-! SUPPORT. The laws of the flag operations and of the register arithmetic. -/

namespace Sys2Proof.Machine

/-- Setting a bit sets that bit and no other. -/
theorem flagTest_setFlagBit (pos q : Fin 8) (p : Byte) :
    flagTest q (setFlagBit pos p) = (decide (q = pos) || flagTest q p) := by
  fin_cases pos <;> fin_cases q <;> simp [flagTest, setFlagBit, flagMask]

/-- Clearing a bit clears that bit and no other. -/
theorem flagTest_clearFlagBit (pos q : Fin 8) (p : Byte) :
    flagTest q (clearFlagBit pos p) = (!decide (q = pos) && flagTest q p) := by
  fin_cases pos <;> fin_cases q <;> simp [flagTest, clearFlagBit, flagMask]

/-- The three flag operations of RESET step 1 as one expression on the byte (R167). -/
theorem resetFlags_eq (p : Byte) : resetFlags p = (p ||| 0x24) &&& 0xF7 := by
  simp only [resetFlags, setFlagBit, clearFlagBit, flagMask, decimalPos, unusedPos, irqDisablePos, BitVec.or_assoc]
  rfl

/-- RESET step 1 leaves bit 5 set whatever it was. -/
theorem resetFlags_unused (p : Byte) : (resetFlags p).getLsbD 5 = true := by
  simp [resetFlags_eq]

/-- Two bytes make the word whose value is `high * 256 + low` (R121). -/
theorem wordOf_toNat (high low : Byte) : (wordOf high low).toNat = high.toNat * 256 + low.toNat := by
  have hh := high.isLt
  have hl := low.isLt
  have hlow : low.toNat % 2 ^ 16 = low.toNat := by omega
  have hhigh : (high.toNat % 2 ^ 16) <<< 8 % 2 ^ 16 = high.toNat <<< 8 := by
    rw [Nat.shiftLeft_eq, Nat.shiftLeft_eq]; omega
  rw [wordOf, BitVec.toNat_or, BitVec.toNat_shiftLeft, BitVec.toNat_setWidth, BitVec.toNat_setWidth, hhigh, hlow,
    ← Nat.shiftLeft_add_eq_or_of_lt hl, Nat.shiftLeft_eq]

/-- The stack address is the base of the stack page plus `sp` (R117). -/
theorem stackAddress_toNat (sp : Byte) : (stackAddress sp).toNat = 0x0100 + sp.toNat := by
  have h := sp.isLt
  have e : stackAddress sp = wordOf 0x01 sp := by simp [stackAddress, wordOf, stackBase]
  rw [e, wordOf_toNat]
  rfl

end Sys2Proof.Machine
end

