-- ==== Sys2Proof/Laws/Operands.lean ====
section
/-! SUPPORT. What each addressing primitive does on a bus. -/

namespace Sys2Proof.Machine

variable {σ : Type} (B : BusDevice σ) (bus : σ) (dp : Datapath)

@[simp] theorem pcRead_runOn (k : Byte → Datapath → Effect) :
    (pcRead dp k).runOn B bus =
      (k (B.read bus dp.pc).1 { dp with pc := pcIncrement dp.pc }, (B.read bus dp.pc).2) := rfl

@[simp] theorem suppressedPush_runOn (k : Datapath → Effect) :
    (suppressedPush dp k).runOn B bus =
      (k { dp with sp := spDecrement dp.sp }, (B.read bus (stackAddress dp.sp)).2) := rfl

@[simp] theorem stackPush_runOn (v : Byte) (k : Datapath → Effect) :
    (stackPush dp v k).runOn B bus =
      (k { dp with sp := spDecrement dp.sp }, B.write bus (stackAddress dp.sp) v) := rfl

@[simp] theorem stackPull_runOn (k : Byte → Datapath → Effect) :
    (stackPull dp k).runOn B bus =
      (k (B.read bus (stackAddress (spIncrement dp.sp))).1 { dp with sp := spIncrement dp.sp },
        (B.read bus (stackAddress (spIncrement dp.sp))).2) := rfl

@[simp] theorem absoluteRead_runOn (addr : Word) (k : Byte → Datapath → Effect) :
    (absoluteRead addr dp k).runOn B bus = (k (B.read bus addr).1 dp, (B.read bus addr).2) := rfl

@[simp] theorem effectiveRead_runOn (k : Byte → Datapath → Effect) :
    (effectiveRead dp k).runOn B bus = (k (B.read bus dp.eff).1 dp, (B.read bus dp.eff).2) := rfl

@[simp] theorem effectiveWrite_runOn (v : Byte) (k : Datapath → Effect) :
    (effectiveWrite dp v k).runOn B bus = (k dp, B.write bus dp.eff v) := rfl

end Sys2Proof.Machine
end

