-- ==== Sys2Proof/Laws/PerInstr.lean ====
section
/-! SUPPORT. Statements made once for every instruction, one lemma per constructor. -/

namespace Sys2Proof.Laws

/-- The instruction is well formed and the bytes it encodes to decode back to it, whatever bytes follow. -/
def Encoding.Statement (i : Instr) : Prop :=
  i.wf = true ∧ ∀ rest : List Byte, decode (encode i ++ rest) = .ok (i, rest)

theorem Encoding.nop (opcode : Byte) : Encoding.Statement (.nop opcode) :=
  ⟨rfl, fun _ => rfl⟩

end Sys2Proof.Laws
end

