-- ==== Sys2Proof/Laws/State.lean ====
section
/-! SUPPORT. What each named update of the state does to each field. -/

namespace Sys2Proof.Machine

section latch
variable (b : Byte) (c : ProcessorState)

@[simp] theorem latchOpcode_a : (latchOpcode b c).dp.a = c.dp.a := rfl
@[simp] theorem latchOpcode_x : (latchOpcode b c).dp.x = c.dp.x := rfl
@[simp] theorem latchOpcode_y : (latchOpcode b c).dp.y = c.dp.y := rfl
@[simp] theorem latchOpcode_pc : (latchOpcode b c).dp.pc = pcIncrement c.dp.pc := rfl
@[simp] theorem latchOpcode_sp : (latchOpcode b c).dp.sp = c.dp.sp := rfl
@[simp] theorem latchOpcode_p : (latchOpcode b c).dp.p = c.dp.p := rfl
@[simp] theorem latchOpcode_ir : (latchOpcode b c).dp.ir = b := rfl
@[simp] theorem latchOpcode_tmp8 : (latchOpcode b c).dp.tmp8 = c.dp.tmp8 := rfl
@[simp] theorem latchOpcode_tmp16 : (latchOpcode b c).dp.tmp16 = c.dp.tmp16 := rfl
@[simp] theorem latchOpcode_eff : (latchOpcode b c).dp.eff = c.dp.eff := rfl
@[simp] theorem latchOpcode_crossed : (latchOpcode b c).dp.crossed = c.dp.crossed := rfl
@[simp] theorem latchOpcode_cur : (latchOpcode b c).cur = .table b := rfl
@[simp] theorem latchOpcode_step : (latchOpcode b c).step = 0 := rfl
@[simp] theorem latchOpcode_ready : (latchOpcode b c).ready = false := rfl

end latch

section clamp
variable (length : Nat) (c : ProcessorState)

@[simp] theorem clampReady_dp : (clampReady length c).dp = c.dp := by unfold clampReady; split <;> rfl
@[simp] theorem clampReady_cur : (clampReady length c).cur = c.cur := by unfold clampReady; split <;> rfl
@[simp] theorem clampReady_step : (clampReady length c).step = c.step := by unfold clampReady; split <;> rfl

/-- After the clamp, `ready` is true exactly when it was or when `step` is past the end. -/
@[simp] theorem clampReady_ready : (clampReady length c).ready = (c.ready || decide (length ≤ c.step)) := by
  unfold clampReady; split <;> simp_all

end clamp

section directive
variable (bits : StepBits) (ctl : StepControl) (c : ProcessorState)

@[simp] theorem applyDirective_dp : (applyDirective bits ctl c).dp = c.dp := by cases ctl <;> rfl
@[simp] theorem applyDirective_cur : (applyDirective bits ctl c).cur = c.cur := by cases ctl <;> rfl

end directive

section commit
variable (bits : StepBits) (length : Nat) (c : ProcessorState) (e : Effect)

@[simp] theorem commitEffect_dp : (commitEffect bits length c e).dp = e.dp := by simp [commitEffect]
@[simp] theorem commitEffect_cur : (commitEffect bits length c e).cur = c.cur := by simp [commitEffect]

/-- The step after an effect is committed depends on the directive alone. -/
theorem commitEffect_step : (commitEffect bits length c e).step =
    match e.ctl with
    | .advance => StepBits.wrap bits (c.step + 1)
    | .complete => c.step
    | .branch n => StepBits.wrap bits n := by
  cases h : e.ctl <;> simp [commitEffect, applyDirective, h]

/-- `ready` after an effect is committed: the micro-operation set it, the directive was Complete, or the clamp fired. -/
theorem commitEffect_ready : (commitEffect bits length c e).ready =
    (c.ready || e.setReady || decide (e.ctl = .complete) || decide (length ≤ (commitEffect bits length c e).step)) := by
  cases h : e.ctl <;> simp [commitEffect, applyDirective, h]

end commit

section reset
variable (c : ProcessorState)

@[simp] theorem beginReset_dp : (beginReset c).dp = c.dp := rfl
@[simp] theorem beginReset_cur : (beginReset c).cur = .reset := rfl
@[simp] theorem beginReset_step : (beginReset c).step = 0 := rfl
@[simp] theorem beginReset_ready : (beginReset c).ready = false := rfl

end reset

section state
variable (s : State) (cycle : BusCycle ProcessorState)

@[simp] theorem State.runCycle_cpu : (s.runCycle cycle).cpu = (cycle.runOn flatRam s.bus).1 := rfl
@[simp] theorem State.runCycle_bus : (s.runCycle cycle).bus = (cycle.runOn flatRam s.bus).2 := rfl
@[simp] theorem State.fetchOpcode_fst : s.fetchOpcode.1 = s.bus.peek s.cpu.dp.pc := rfl
@[simp] theorem State.fetchOpcode_cpu : s.fetchOpcode.2.cpu = s.cpu := rfl
@[simp] theorem State.fetchOpcode_mem : s.fetchOpcode.2.bus.mem = s.bus.mem := rfl
@[simp] theorem State.fetchOpcode_trace : s.fetchOpcode.2.bus.trace = s.bus.trace ++ [.read s.cpu.dp.pc] := rfl
@[simp] theorem State.hostWrite_cpu (addr : Word) (v : Byte) : (s.hostWrite addr v).cpu = s.cpu := rfl
@[simp] theorem State.hostWrite_bus (addr : Word) (v : Byte) : (s.hostWrite addr v).bus = s.bus.poke addr v := rfl

end state

end Sys2Proof.Machine
end

