-- ==== Sys2Proof/Laws/Sequencer.lean ====
section
/-! SUPPORT. Everything an Execute cycle, a tick and a step can do, said once. -/

namespace Sys2Proof.Machine

/-! ### One Execute cycle -/

/-- In range, the micro-operation at `step` runs and its effect is committed. -/
theorem executeCycle_of_some {bits : StepBits} {ins : Instruction} {c : ProcessorState} {μ : MicroOp}
    (h : ins.seq[c.step]? = some μ) :
    executeCycle bits ins c = (μ c).map (commitEffect bits ins.seq.length c) := by
  simp [executeCycle, h]

/-- Out of range, nothing runs and the clamp sets `ready`. -/
theorem executeCycle_of_le {bits : StepBits} {ins : Instruction} {c : ProcessorState} (h : ins.seq.length ≤ c.step) :
    executeCycle bits ins c = .quiet { c with ready := true } := by
  simp [executeCycle, clampReady, h]

/-- Everything an Execute cycle can do on a bus: it is spent because `step` is out of range, or it commits the effect of one
micro-operation, whose transaction is the only one. -/
theorem executeCycle_runOn_cases {σ : Type} (bits : StepBits) (ins : Instruction) (c : ProcessorState) (B : BusDevice σ) (bus : σ) :
    (ins.seq.length ≤ c.step ∧ (executeCycle bits ins c).runOn B bus = ({ c with ready := true }, bus)) ∨
    ∃ μ, ins.seq[c.step]? = some μ ∧ c.step < ins.seq.length ∧
      (executeCycle bits ins c).runOn B bus =
        (commitEffect bits ins.seq.length c ((μ c).runOn B bus).1, ((μ c).runOn B bus).2) := by
  by_cases h : ins.seq.length ≤ c.step
  · exact .inl ⟨h, by rw [executeCycle_of_le h]; rfl⟩
  · have h' : c.step < ins.seq.length := by omega
    exact .inr ⟨ins.seq[c.step], List.getElem?_eq_getElem h', h',
      by rw [executeCycle_of_some (List.getElem?_eq_getElem h'), BusCycle.runOn_map]⟩

/-- An Execute cycle never changes which row is executing. -/
theorem executeCycle_runOn_cur {σ : Type} (bits : StepBits) (ins : Instruction) (c : ProcessorState) (B : BusDevice σ) (bus : σ) :
    ((executeCycle bits ins c).runOn B bus).1.cur = c.cur := by
  obtain ⟨-, h⟩ | ⟨μ, -, -, h⟩ := executeCycle_runOn_cases bits ins c B bus <;> simp [h]

/-- An Execute cycle that leaves the machine in Execute state leaves `step` in range. -/
theorem executeCycle_runOn_step_lt {σ : Type} (bits : StepBits) (ins : Instruction) (c : ProcessorState) (B : BusDevice σ) (bus : σ)
    (hr : ((executeCycle bits ins c).runOn B bus).1.ready = false) :
    ((executeCycle bits ins c).runOn B bus).1.step < ins.seq.length := by
  obtain ⟨-, h⟩ | ⟨μ, -, -, h⟩ := executeCycle_runOn_cases bits ins c B bus
  · simp [h] at hr
  · rw [h] at hr ⊢
    simp only [commitEffect_ready, Bool.or_eq_false_iff, decide_eq_false_iff_not, not_le] at hr
    exact hr.2

/-- An Execute cycle of the default no-op sets `ready` and does nothing else, at any `step`. -/
@[simp] theorem executeCycle_nop (bits : StepBits) (c : ProcessorState) :
    executeCycle bits nopInstruction c = .quiet { c with ready := true } := by
  rcases Nat.eq_zero_or_pos c.step with h | h
  · rw [executeCycle_of_some (μ := nopStep) (by simp [nopInstruction, h])]
    simp [nopStep, BusCycle.map, commitEffect, applyDirective, Effect.done, clampReady, nopInstruction, h]
  · exact executeCycle_of_le (by simpa [nopInstruction] using Nat.succ_le_of_lt h)

/-- The micro-operation that RESET runs at each `step` (R166). -/
theorem resetInstruction_getElem? (k : Nat) : resetInstruction.seq[k]? =
    match k with
    | 0 => some resetStep1
    | 1 => some resetStep2
    | 2 => some resetStep3
    | 3 => some resetStep4
    | 4 => some resetStep5
    | 5 => some resetStep6
    | 6 => some resetStep7
    | 7 => some resetStep8
    | 8 => some resetStep9
    | _ => none := by
  match k with
  | 0 | 1 | 2 | 3 | 4 | 5 | 6 | 7 | 8 => rfl
  | k + 9 => simp [resetInstruction]

theorem resetInstruction_length : resetInstruction.seq.length = 9 := rfl

/-! ### One tick -/

theorem tickCycle_of_ready {P : Params} {c : ProcessorState} (h : c.ready = true) :
    tickCycle P c = .read c.dp.pc fun b => latchOpcode b c := by
  simp [tickCycle, fetchCycle, h]

theorem tickCycle_of_not_ready {P : Params} {c : ProcessorState} (h : c.ready = false) :
    tickCycle P c = executeCycle P.stepBits (P.instructionOf c.cur) c := by
  simp [tickCycle, h]

@[simp] theorem State.tickWith_cpu (P : Params) (s : State) : (s.tickWith P).cpu = ((tickCycle P s.cpu).runOn flatRam s.bus).1 := rfl

@[simp] theorem State.tickWith_bus (P : Params) (s : State) : (s.tickWith P).bus = ((tickCycle P s.cpu).runOn flatRam s.bus).2 := rfl

/-- A tick keeps the memory's canonical form, whatever the microcode does. -/
theorem State.tickWith_mem_wf (P : Params) (s : State) (h : Memory.wf s.bus.mem = true) : Memory.wf (s.tickWith P).bus.mem = true :=
  BusCycle.runOn_flatRam_wf _ _ h

/-- A tick leaves `step` in range. -/
theorem State.tickWith_step_in_range (P : Params) (s : State) : StepInRange P (s.tickWith P).cpu := by
  intro hr
  cases h : s.cpu.ready with
  | true =>
    rw [State.tickWith_cpu, tickCycle_of_ready h]
    rcases Nat.eq_zero_or_pos (P.instructionOf (.table (s.bus.peek s.cpu.dp.pc))).seq.length with h0 | h0
    · exact .inr ⟨rfl, h0⟩
    · exact .inl h0
  | false =>
    rw [State.tickWith_cpu, tickCycle_of_not_ready h] at hr ⊢
    rw [executeCycle_runOn_cur]
    exact .inl (executeCycle_runOn_step_lt _ _ _ _ _ hr)

/-- Every micro-operation of every row keeps bit 5, when the table's own do. -/
theorem Params.WellFormed.row {P : Params} (h : P.WellFormed) (row : MicroRow) :
    ∀ μ ∈ (P.instructionOf row).seq, μ.KeepsUnused := by
  cases row with
  | table opcode => exact h opcode
  | placeholder =>
    intro μ hμ c hc
    obtain rfl : μ = nopStep := by simpa [Params.instructionOf, nopInstruction] using hμ
    exact hc
  | reset =>
    intro μ hμ c hc
    simp only [Params.instructionOf, resetInstruction, List.mem_cons, List.not_mem_nil, or_false] at hμ
    rcases hμ with rfl | rfl | rfl | rfl | rfl | rfl | rfl | rfl | rfl
    · intro b; exact resetFlags_unused _
    all_goals intro b; exact hc

/-- A tick keeps bit 5 of the status byte, when the microcode does. -/
theorem State.tickWith_unused {P : Params} (hP : P.WellFormed) (s : State) (h : s.cpu.dp.p.getLsbD 5 = true) :
    (s.tickWith P).cpu.dp.p.getLsbD 5 = true := by
  cases hr : s.cpu.ready with
  | true => simpa [tickCycle_of_ready hr] using h
  | false =>
    rw [State.tickWith_cpu, tickCycle_of_not_ready hr]
    obtain ⟨-, e⟩ | ⟨μ, hμ, -, e⟩ :=
      executeCycle_runOn_cases P.stepBits (P.instructionOf s.cpu.cur) s.cpu flatRam s.bus
    · simpa [e] using h
    · rw [e]
      simpa using (hP.row _ μ (List.mem_of_getElem? hμ) s.cpu h).runOn flatRam s.bus

/-- The last of several ticks. -/
theorem State.ticksWith_succ (P : Params) (n : Nat) (s : State) : s.ticksWith P (n + 1) = (s.ticksWith P n).tickWith P := by
  induction n generalizing s with
  | zero => rfl
  | succ n ih => exact ih (s.tickWith P)

/-! ### One step -/

@[simp] theorem exec_nop (opcode : Byte) (s : State) : exec (.nop opcode) s = execNop opcode s := rfl

theorem execNop_of_ready {opcode : Byte} {s : State} (h : s.cpu.ready = true) :
    execNop opcode s = .next { s with cpu := latchOpcode opcode s.cpu } := by
  simp [execNop, h]

theorem execNop_of_not_ready {opcode : Byte} {s : State} (h : s.cpu.ready = false) :
    execNop opcode s = .next { s with cpu := { s.cpu with ready := true } } := by
  simp [execNop, h, State.runCycle]

/-- A step in Fetch state: one read at `pc`, and the latch. -/
theorem step_of_ready {s : State} (h : s.cpu.ready = true) :
    step s = .next
      { cpu := latchOpcode (s.bus.peek s.cpu.dp.pc) s.cpu
        bus := { s.bus with trace := s.bus.trace ++ [.read s.cpu.dp.pc] } } := by
  simp only [step, h, ↓reduceIte, decodeOpcode, exec_nop]
  rw [execNop_of_ready (by simpa using h)]
  rfl

/-- A step in Execute state of a table row: only `ready` changes. -/
theorem step_of_table {s : State} (h : s.cpu.ready = false) {opcode : Byte} (hc : s.cpu.cur = .table opcode) :
    step s = .next { s with cpu := { s.cpu with ready := true } } := by
  simp [step, h, hc, decodeOpcode, execNop_of_not_ready h]

/-- A step in Execute state of the placeholder row: only `ready` changes. -/
theorem step_of_placeholder {s : State} (h : s.cpu.ready = false) (hc : s.cpu.cur = .placeholder) :
    step s = .next { s with cpu := { s.cpu with ready := true } } := by
  simp [step, h, hc, State.rowTick, State.runCycle, Params.instructionOf]

/-- A step in Execute state of the RESET row is one Execute cycle of RESET. -/
theorem step_of_reset {s : State} (h : s.cpu.ready = false) (hc : s.cpu.cur = .reset) :
    step s = .next (s.runCycle (executeCycle none resetInstruction s.cpu)) := by
  simp [step, h, hc, State.rowTick, Params.instructionOf, Config.stepBits]

/-- Everything a step can do: fetch and latch, end a row that no RESET is running, or run one cycle of RESET. -/
theorem step_cases {s t : State} (e : step s = .next t) :
    (s.cpu.ready = true ∧
      t = { cpu := latchOpcode (s.bus.peek s.cpu.dp.pc) s.cpu
            bus := { s.bus with trace := s.bus.trace ++ [.read s.cpu.dp.pc] } }) ∨
    (s.cpu.ready = false ∧ s.cpu.cur ≠ .reset ∧ t = { s with cpu := { s.cpu with ready := true } }) ∨
    (s.cpu.ready = false ∧ s.cpu.cur = .reset ∧ t = s.runCycle (executeCycle none resetInstruction s.cpu)) := by
  cases h : s.cpu.ready with
  | true =>
    rw [step_of_ready h] at e
    cases e
    exact .inl ⟨rfl, rfl⟩
  | false =>
    cases hc : s.cpu.cur with
    | table opcode =>
      rw [step_of_table h hc] at e
      cases e
      exact .inr (.inl ⟨rfl, by simp, rfl⟩)
    | placeholder =>
      rw [step_of_placeholder h hc] at e
      cases e
      exact .inr (.inl ⟨rfl, by simp, rfl⟩)
    | reset =>
      rw [step_of_reset h hc] at e
      cases e
      exact .inr (.inr ⟨rfl, rfl, rfl⟩)

/-- A run of `m + n` steps is a run of `n` steps from where `m` steps lead. -/
theorem runSteps_add {m : Nat} {s t : State} (h : runSteps m s = .next t) (n : Nat) : runSteps (m + n) s = runSteps n t := by
  induction m generalizing s with
  | zero => cases h; simp
  | succ m ih =>
    rw [Nat.add_right_comm]
    simp only [runSteps] at h ⊢
    split at h <;> simp_all

end Sys2Proof.Machine
end

