-- ==== Sys2Proof/Tests/Slice0.lean ====
section
/-! SUPPORT. Tests, each with its source in the spec, and for every statement with hypotheses a witness that meets them. -/

namespace Sys2Proof.Tests

open Sys2Proof Sys2Proof.Machine

/-! ### Helpers: small states -/

/-- A fresh machine over this memory with the host's `pc`. -/
def fetchAt (mem : Memory) (pc : Word) : State :=
  { (State.new Config.scratchInit mem) with cpu :=
    { (State.new Config.scratchInit mem).cpu with dp := { (State.new Config.scratchInit mem).cpu.dp with pc := pc } } }

/-- A fresh machine in Execute state of this row at this step. -/
def executing (row : MicroRow) (k : Nat) : State :=
  { State.reset with cpu := { State.reset.cpu with cur := row, step := k, ready := false } }

/-- `f` of the next state, if there is one. -/
def after {α : Type} (o : Host.Outcome State Fault Refusal) (f : State → α) : Option α :=
  match o with
  | .next s => some (f s)
  | .fault _ => none
  | .refused _ => none

/-! ### Checks that refuse -/

theorem test_every_instruction_is_well_formed (b : Byte) : (Instr.nop b).wf = true := rfl

theorem test_bit_position_8_is_refused : flagPosition? 8 = none ∧ flagPosition? 7 = some 7 := by decide

theorem test_three_bit_step_counter_cannot_hold_8 :
    StepBits.holds (some 3) 8 = false ∧ StepBits.holds (some 4) 8 = true ∧ StepBits.holds none 8 = true := by decide

theorem test_memory_out_of_order_is_refused : Memory.wf [(2, 0x01), (1, 0x02)] = false := by decide

theorem test_memory_with_a_repeat_is_refused : Memory.wf [(1, 0x01), (1, 0x02)] = false := by decide

theorem test_memory_beyond_the_address_space_is_refused : Memory.wf [(65536, 0x01)] = false := by decide

/-- A micro-operation that clears bit 5 of the status byte is not well formed (R138, U3). -/
theorem test_clearing_bit_5_is_refused :
    ¬ MicroOp.KeepsUnused fun c => .quiet (Effect.done { c.dp with p := clearFlagBit unusedPos c.dp.p } .complete) := by
  intro h
  have h' := h State.reset.cpu (by decide)
  exact absurd h' (by show ¬ ((clearFlagBit unusedPos 0x24).getLsbD 5 = true); decide)

/-- `BOUT` of V7, one micro-operation that returns Branch(7), is not tidy (R158 c). -/
theorem test_branch_out_of_range_is_not_tidy :
    ¬ Instruction.Tidy { name := "BOUT", seq := [fun c => .quiet (Effect.done c.dp (.branch 7))] } := by
  intro h
  exact absurd (h 0 _ rfl State.reset.cpu) (by show ¬ (7 < 1); decide)

/-! ### Decoding: format OP8, `opcode[7:0]` (R90) -/

theorem test_decode_EA : decode [0b11101010] = .ok (.nop 0xEA, []) := by rfl

theorem test_decode_keeps_the_bytes_after : decode [0b10100101, 0x11, 0x22] = .ok (.nop 0xA5, [0x11, 0x22]) := by rfl

theorem test_decode_nothing : decode [] = .error .noOpcodeByte := by rfl

theorem test_decode_table_word : decodeTableWord 8 0x7F = some (.nop 0x7F) := by decide

/-! ### Flags (vectors V1 to V3, S1, S9) -/

theorem test_set_flag_bit : setFlagBit 7 0x7F = 0xFF ∧ setFlagBit 2 0x24 = 0x24 ∧ setFlagBit 0 0x24 = 0x25 := by decide

theorem test_clear_flag_bit_uses_the_complement : clearFlagBit 3 0x2C = 0x24 ∧ clearFlagBit 5 0xFF = 0xDF := by decide

theorem test_from_byte_5A : fromByte 0x5A =
    { carry := false, zero := true, irqDisable := false, decimal := true, brk := true, unused := false
      overflow := true, negative := false } := by decide

theorem test_to_byte_24 : toByte
    { carry := false, zero := false, irqDisable := true, decimal := false, brk := false, unused := true
      overflow := false, negative := false } = 0x24 := by decide

theorem test_force_unused : forceUnused 0xDF = 0xFF ∧ forceUnused 0x81 = 0xA1 ∧ (fromByte 0x00).unused = false := by decide

/-! ### Register arithmetic (V4, V5, S2, S3) -/

theorem test_stack_address : stackAddress 0xFD = 0x01FD ∧ stackAddress 0x00 = 0x0100 := by decide

theorem test_stack_pointer_wraps : spDecrement 0x00 = 0xFF ∧ spIncrement 0xFF = 0x00 := by decide

theorem test_pc_increment : pcIncrement 0xFFFF = 0x0000 ∧ pcIncrement 0x00FF = 0x0100 := by decide

theorem test_word_assembly : wordOf 0x12 0x34 = 0x1234 := by decide

/-! ### Memory -/

theorem test_memory_write_replaces : Memory.write [(1, 0x01), (3, 0x03)] 3 0x33 = [(1, 0x01), (3, 0x33)] := by decide

theorem test_memory_write_inserts_in_order : Memory.write [(1, 0x01), (3, 0x03)] 2 0x02 = [(1, 0x01), (2, 0x02), (3, 0x03)] := by decide

/-! ### The step (S7, V6) -/

/-- S7, first tick: `ir = 0xEA`, `pc = 0x0201`, `cur = NOP`, `step = 0`, `ready = false`, one read at 0x0200. -/
theorem test_fetch_tick_of_S7 : after (step (fetchAt [(0x0200, 0xEA)] 0x0200)) (fun s => (s.cpu.dp.ir, s.cpu.dp.pc, s.cpu.cur, s.cpu.step, s.cpu.ready)) =
    some (0xEA, 0x0201, .table 0xEA, 0, false) := by decide

/-- S7, second tick: `ready = true`, `step = 0`, no transaction. -/
theorem test_execute_tick_of_S7 : after (step (executing (.table 0xEA) 0)) (fun s => (s.cpu.ready, s.cpu.step, s.bus.trace)) =
    some (true, 0, []) := by decide

/-- V6, third row: the fetch at 0xFFFF wraps `pc`. -/
theorem test_fetch_tick_wraps_pc : after (step (fetchAt [(0xFFFF, 0x01)] 0xFFFF)) (fun s => (s.cpu.dp.ir, s.cpu.dp.pc, s.bus.trace)) =
    some (0x01, 0x0000, [.read 0xFFFF]) := by decide

/-- The first step after reset runs the word put where it fetches. -/
theorem test_first_step_runs_the_fetch_word : after (step (State.reset.withFetchWord 8 0xEA)) (fun s => (s.cpu.dp.ir, s.cpu.cur)) =
    some (0xEA, .table 0xEA) := by decide

/-! ### Directives and the clamp (V7, S6): host microcode -/

/-- A table with one populated opcode. -/
def oneEntry (opcode : Byte) (name : String) (seq : List MicroOp) : Params :=
  { table := defaultTable.install opcode { name := name, seq := seq }, stepBits := none }

/-- A micro-operation that does nothing and returns this directive. -/
def only (ctl : StepControl) : MicroOp := fun c => .quiet (Effect.done c.dp ctl)

/-- V7, tick 3: Advance from the last entry of ADV2; the clamp fires and `step` stays at 2. -/
theorem test_advance_past_the_end_is_clamped :
    (let s := (executing (.table 0x20) 1).tickWith (oneEntry 0x20 "ADV2" [only .advance, only .advance]); (s.cpu.step, s.cpu.ready)) = (2, true) := by decide

/-- V7, tick 5: Branch(7) in a one-entry sequence. -/
theorem test_branch_out_of_range_is_clamped :
    (let s := (executing (.table 0x21) 0).tickWith (oneEntry 0x21 "BOUT" [only (.branch 7)]); (s.cpu.step, s.cpu.ready)) = (7, true) := by decide

/-- V7, tick 7: the empty Instruction. -/
theorem test_empty_instruction_is_clamped :
    (let s := (executing (.table 0x22) 0).tickWith (oneEntry 0x22 "EMPTY" []); (s.cpu.step, s.cpu.ready, s.bus.trace)) = (0, true, []) := by decide

/-- S6, tick 4: Branch(0) from step 2. -/
theorem test_branch_back_to_the_start :
    (let s := (executing (.table 0x10) 2).tickWith (oneEntry 0x10 "BT" [only .advance, only .advance, only (.branch 0)]); (s.cpu.step, s.cpu.ready)) =
      (0, false) := by decide

/-- P3, tick 5: entry 1 of PUSHA writes the accumulator at 0x0100 and wraps `sp` to 0xFF. -/
theorem test_push_of_P3 :
    (let s := { executing (.table 0x48) 1 with cpu :=
        { (executing (.table 0x48) 1).cpu with dp := { (executing (.table 0x48) 1).cpu.dp with a := 0x80 } } }
     let t := s.tickWith (oneEntry 0x48 "PUSHA" [only .advance, fun c => stackPush c.dp c.dp.a fun dp => Effect.done dp .complete])
     (t.bus.mem, t.bus.trace, t.cpu.dp.sp, t.cpu.ready)) = ([(0x0100, 0x80)], [.write 0x0100 0x80], 0xFF, true) := by decide

/-- P4, tick 6: entry 2 of LDAX makes the wrong-page dummy read at 0x2000 and moves `eff` to 0x2100. -/
theorem test_page_cross_cycle_of_P4 :
    (let s := { executing (.table 0xBD) 0 with cpu :=
        { (executing (.table 0xBD) 0).cpu with dp := { (executing (.table 0xBD) 0).cpu.dp with eff := 0x2000, crossed := true } } }
     let t := s.tickWith (oneEntry 0xBD "LDAX2" [fun c => effectiveRead c.dp fun _ dp => Effect.done { dp with eff := dp.eff + 0x0100 } .advance, only .complete])
     (t.cpu.dp.eff, t.bus.trace, t.cpu.step)) = (0x2100, [.read 0x2000], 1) := by decide

/-! ### RESET (S4, V8) -/

/-- S4, tick 1 from `p = 0xFF` (the example of R167): `p = 0xF7`. -/
theorem test_reset_step_1_flags : resetFlags 0xFF = 0xF7 ∧ resetFlags 0x00 = 0x24 ∧ resetFlags 0xC3 = 0xE7 := by decide

/-- S4, tick 4: the read is at 0x0100, before the decrement. -/
theorem test_reset_step_4 : after (step (executing .reset 3)) (fun s => (s.cpu.dp.sp, s.bus.trace, s.cpu.step)) = some (0xFF, [.read 0x0100], 4) := by decide

/-- V8 c: a machine with decimal set and a vector that points at itself. -/
theorem test_reset_of_V8_c :
    (let s := fetchAt [(0xFFFC, 0xFC), (0xFFFD, 0xFF)] 0x0000
     (({ s with cpu := { s.cpu with dp := { s.cpu.dp with p := 0x08 } } } : State).runReset defaultParams).map fun t =>
      (t.cpu.dp.p, t.cpu.dp.sp, t.cpu.dp.pc, t.cpu.dp.ir, t.cpu.dp.tmp8)) = some (0x24, 0xFD, 0xFFFD, 0xFC, 0xFC) := by decide

/-! ### Witnesses: the hypotheses of each statement can be met together -/

theorem witness_ConstructionMeetsTheInvariant : Memory.wf [(0xFFFC, 0x00), (0xFFFD, 0x80)] = true := by decide

theorem reset_meets_Inv : Inv defaultParams State.reset :=
  ⟨by decide, by decide, fun h => absurd h (by decide), fun _ => rfl⟩

/-- In Fetch state. -/
theorem witness_StepKeepsTheInvariant : ∃ s t, Inv defaultParams s ∧ step s = .next t :=
  ⟨_, _, reset_meets_Inv, step_of_ready rfl⟩

/-- In Execute state of RESET. -/
theorem witness_StepKeepsTheInvariant_in_RESET :
    ∃ s t, Inv defaultParams s ∧ s.cpu.ready = false ∧ s.cpu.cur = .reset ∧ step s = .next t :=
  ⟨executing .reset 8, _, ⟨by decide, by decide, fun _ => .inl (by decide), fun h => absurd h (by decide)⟩, rfl, rfl, step_of_reset rfl rfl⟩

theorem default_well_formed : defaultParams.WellFormed := by
  intro opcode μ hμ c hc
  obtain rfl : μ = nopStep := by simpa [defaultParams, defaultTable, nopInstruction] using hμ
  exact hc

theorem witness_HostRunsFromConstructionKeepTheInvariant :
    defaultParams.WellFormed ∧ Memory.wf [] = true ∧
      (hostRun defaultParams [.busWrite 0x0200 0xEA, .setPc 0x0200, .tick, .tick, .reset] State.reset).isSome = true :=
  ⟨default_well_formed, rfl, by decide⟩

theorem witness_DocumentedTicksNeitherReadNorWriteHostRegisters :
    (∃ t, step State.reset = .next t) ∧ (State.reset.runReset defaultParams).isSome = true :=
  ⟨⟨_, step_of_ready rfl⟩, by decide⟩

theorem witness_OnlyResetStep1WritesTheStatusByte :
    (∃ t, step (executing .reset 0) = .next t) ∧ (executing .reset 0).cpu.ready = false ∧ (∃ t, step (executing .reset 1) = .next t) :=
  ⟨⟨_, step_of_reset rfl rfl⟩, rfl, ⟨_, step_of_reset rfl rfl⟩⟩

theorem witness_DocumentedTicksNeverReadTheStatusByte : ∃ t, step (executing .reset 0) = .next t := ⟨_, step_of_reset rfl rfl⟩

theorem witness_ReadAfterWriteAnswersTheByteWritten : ∃ t, step (executing .reset 8) = .next t := ⟨_, step_of_reset rfl rfl⟩

theorem witness_MemoryWriteKeepsTheCanonicalForm : Memory.wf [(0, 0x00), (65535, 0xFF)] = true := by decide

theorem witness_CanonicalMemoriesWithEqualBytesAreEqual :
    ∃ m m' : Memory, Memory.wf m = true ∧ Memory.wf m' = true ∧ ∀ addr : Word, Memory.read? m addr.toNat = Memory.read? m' addr.toNat :=
  ⟨[(5, 0x05)], [(5, 0x05)], by decide, by decide, fun _ => rfl⟩

/-- Both ends of every range of the statement: Fetch, a table row, RESET at 0, 2, 3, 5, 6, 7, 8 and past the end. -/
theorem witness_TransactionsOfEveryDocumentedTick :
    [executing .reset 0, executing .reset 2, executing .reset 3, executing .reset 5, executing .reset 6, executing .reset 7,
      executing .reset 8, executing .reset 9, executing (.table 0x00) 0, fetchAt [] 0x1234].map (fun s => after (step s) (fun t => t.bus.trace)) =
    [some [.read 0x00FF], some [.read 0x00FF], some [.read 0x0100], some [.read 0x0100], some [.read 0xFFFC], some [.read 0xFFFD],
      some [.read 0x0000], some [], some [], some [.read 0x1234]] := by decide

/-- Two different devices that answer the one read alike: flat RAM, and a bus that counts its transactions. -/
theorem witness_TickDependsOnTheBusOnlyThroughItsAnswer :
    ∃ (B : BusDevice Bus) (C : BusDevice Nat) (b : Bus) (d : Nat), ∀ addr : Word,
      (tickCycle defaultParams (fetchAt [] 0x0007).cpu).events = [.read addr] → (B.read b addr).1 = (C.read d addr).1 := by
  refine ⟨flatRam, { read := fun n _ => (0x42, n + 1), write := fun n _ _ => n + 1 }, (fetchAt [(0x0007, 0x42)] 0x0007).bus, 0, ?_⟩
  intro addr h
  obtain rfl : addr = 0x0007 := by
    have h' : [BusEvent.read 0x0007] = [.read addr] := h
    simpa using h'.symm
  rfl

theorem witness_WritesAreSeenByTheNextFetchAndNotByTheCurrentInstruction :
    State.reset.cpu.ready = true ∧ (executing (.table 0xEA) 0).cpu.ready = false ∧
      (executing (.table 0xEA) 0).cpu.cur = .table 0xEA ∧ ∃ t, step (executing (.table 0xEA) 0) = .next t :=
  ⟨rfl, rfl, rfl, ⟨_, step_of_table rfl rfl⟩⟩

theorem witness_DecodingAndEncodingAgreeOnEveryByte :
    (Instr.nop 0x00).wf = true ∧ (Instr.nop 0xFF).wf = true ∧ ∃ i rest, decode [0xFF, 0x01] = .ok (i, rest) :=
  ⟨rfl, rfl, _, _, rfl⟩

theorem witness_SetAndClearWriteExactlyOneBit :
    flagTest 0 (setFlagBit 0 0x00) = true ∧ flagTest 7 (setFlagBit 0 0x00) = false ∧ flagTest 7 (clearFlagBit 7 0xFF) = false ∧
      flagTest 0 (clearFlagBit 7 0xFF) = true := by decide

theorem witness_PushThenPullGivesTheByteBack : ∃ addr : Word, addr ≠ stackAddress 0x00 := ⟨0x01FF, by decide⟩

theorem witness_StepIsExactlyOnePhaseOfTick : State.reset.cpu.ready = true ∧ (executing .reset 0).cpu.ready = false := ⟨rfl, rfl⟩

theorem witness_FetchPhaseLatchesTheOpcode : State.reset.cpu.ready = true := rfl

/-- In range with entries left, and from the last entry. -/
theorem witness_AdvanceMovesToTheNextMicroOperation :
    let P := oneEntry 0x20 "ADV2" [only .advance, only .advance]
    ∀ k < 2, ∃ μ e bus', P.stepBits = none ∧ (executing (.table 0x20) k).cpu.ready = false ∧
      (P.instructionOf (executing (.table 0x20) k).cpu.cur).seq[(executing (.table 0x20) k).cpu.step]? = some μ ∧
      (μ (executing (.table 0x20) k).cpu).runOn flatRam State.reset.bus = (e, bus') ∧ e.ctl = .advance := by
  intro P k hk
  refine ⟨only .advance, _, _, rfl, rfl, ?_, rfl, rfl⟩
  match k, hk with
  | 0, _ => rfl
  | 1, _ => rfl

theorem witness_CompleteReturnsToFetchState :
    ∃ μ e bus', (executing (.table 0xEA) 0).cpu.ready = false ∧
      (defaultParams.instructionOf (executing (.table 0xEA) 0).cpu.cur).seq[(executing (.table 0xEA) 0).cpu.step]? = some μ ∧
      (μ (executing (.table 0xEA) 0).cpu).runOn flatRam State.reset.bus = (e, bus') ∧ e.ctl = .complete :=
  ⟨nopStep, _, _, rfl, rfl, rfl, rfl⟩

/-- A target in range, and one past the end. -/
theorem witness_BranchJumpsWithinTheMicrocode :
    ∀ n : Nat, ∃ μ e bus', (oneEntry 0x21 "B" [only (.branch n)]).stepBits = none ∧ (executing (.table 0x21) 0).cpu.ready = false ∧
      ((oneEntry 0x21 "B" [only (.branch n)]).instructionOf (executing (.table 0x21) 0).cpu.cur).seq[(executing (.table 0x21) 0).cpu.step]? = some μ ∧
      (μ (executing (.table 0x21) 0).cpu).runOn flatRam State.reset.bus = (e, bus') ∧ e.ctl = .branch n :=
  fun n => ⟨only (.branch n), _, _, rfl, rfl, rfl, rfl, rfl⟩

theorem witness_ClampHoldsAfterEveryExecuteTick :
    (executing (.table 0x21) 0).cpu.ready = false ∧
      ((oneEntry 0x21 "BOUT" [only (.branch 7)]).instructionOf (executing (.table 0x21) 0).cpu.cur).seq.length ≤
        (tickOn (oneEntry 0x21 "BOUT" [only (.branch 7)]) flatRam ((executing (.table 0x21) 0).cpu, State.reset.bus)).1.step :=
  ⟨rfl, by decide⟩

theorem witness_OutOfRangeExecuteTickIsSpent :
    (executing (.table 0xEA) 1).cpu.ready = false ∧
      (defaultParams.instructionOf (executing (.table 0xEA) 1).cpu.cur).seq.length ≤ (executing (.table 0xEA) 1).cpu.step := ⟨rfl, by decide⟩

theorem witness_StraightLineInstructionTakesOneTickPerEntryAfterTheFetch :
    let P := oneEntry 0x30 "TWO" [only .advance, only .complete]
    let s := fetchAt [(0x0000, 0x30)] 0x0000
    P.stepBits = none ∧ s.cpu.ready = true ∧ (P.table (s.hostRead s.cpu.dp.pc)).seq ≠ [] ∧
      (P.table (s.hostRead s.cpu.dp.pc)).StraightLine := by
  refine ⟨rfl, rfl, by show [only .advance, only .complete] ≠ []; simp, ?_⟩
  intro k μ hμ c
  have hμ' : [only .advance, only .complete][k]? = some μ := hμ
  match k, hμ' with
  | 0, h => obtain rfl : only .advance = μ := by simpa using h
            exact ⟨rfl, rfl⟩
  | 1, h => obtain rfl : only .complete = μ := by simpa using h
            exact ⟨rfl, rfl⟩
  | k + 2, h => simp at h

theorem witness_EndlessMicrocodeNeverReturnsToFetch :
    let P := oneEntry 0x31 "LOOP" [only (.branch 0)]
    let s := executing (.table 0x31) 0
    P.stepBits = none ∧ s.cpu.ready = false ∧ s.cpu.step < (P.instructionOf s.cpu.cur).seq.length ∧
      (P.instructionOf s.cpu.cur).Endless := by
  refine ⟨rfl, rfl, by decide, ?_⟩
  intro k μ hμ c
  have hμ' : [only (.branch 0)][k]? = some μ := hμ
  match k, hμ' with
  | 0, h => obtain rfl : only (.branch 0) = μ := by simpa using h
            exact ⟨rfl, Nat.zero_lt_one⟩
  | k + 1, h => simp at h

theorem witness_WideEnoughStepCounterBehavesAsUnbounded :
    (defaultParams.instructionOf .reset).seq.length < 2 ^ 4 ∧
      ∀ (j : Nat) (μ : MicroOp), (defaultParams.instructionOf .reset).seq[j]? = some μ →
        (μ (executing .reset 0).cpu).Always fun e => ∀ n, e.ctl = .branch n → n < 2 ^ 4 := by
  refine ⟨by decide, ?_⟩
  intro j μ hμ
  have hμ' := List.mem_of_getElem? hμ
  simp only [Params.instructionOf, resetInstruction, List.mem_cons, List.not_mem_nil, or_false] at hμ'
  rcases hμ' with rfl | rfl | rfl | rfl | rfl | rfl | rfl | rfl | rfl
  all_goals intro b n hn; cases hn

theorem witness_NopFetchCycleCompletes : State.reset.cpu.ready = true := rfl

theorem witness_NopExecuteCycleCompletes :
    (executing (.table 0x00) 0).cpu.ready = false ∧ (executing (.table 0x00) 5).cpu.ready = false := ⟨rfl, rfl⟩

theorem witness_NopLeavesEverythingElseUnchanged :
    (∃ t, exec (.nop 0xEA) State.reset = .next t) ∧ ∃ t, exec (.nop 0xEA) (executing (.table 0xEA) 0) = .next t :=
  ⟨⟨_, execNop_of_ready rfl⟩, ⟨_, execNop_of_not_ready rfl⟩⟩

theorem witness_NopInstructionNetEffectInTwoTicks : (fetchAt [(0x0200, 0xEA)] 0x0200).cpu.ready = true := rfl

theorem witness_FetchStepRunsTheDecodedInstruction :
    (fetchAt [(0x0200, 0xEA)] 0x0200).cpu.ready = true ∧
      decode [(fetchAt [(0x0200, 0xEA)] 0x0200).hostRead 0x0200] = .ok (.nop 0xEA, []) ∧ (Instr.nop 0xEA).wf = true := ⟨rfl, rfl, rfl⟩

theorem witness_ExecuteStepRunsTheSelectedInstruction :
    ((executing (.table 0xEA) 0).cpu.cur = .table 0xEA ∧ decode [0xEA] = .ok (.nop 0xEA, []) ∧ (Instr.nop 0xEA).wf = true) ∧
      (executing .reset 0).cpu.cur = .reset ∧ (executing .placeholder 0).cpu.cur = .placeholder := ⟨⟨rfl, rfl, rfl⟩, rfl, rfl⟩

theorem witness_EveryDefaultProgramIsARunOfNoOps : State.reset.cpu.ready = true := rfl

theorem witness_ClampNeverFiresInTidyMicrocode :
    (executing (.table 0xEA) 0).cpu.ready = false ∧ (defaultParams.instructionOf (.table 0xEA)).Tidy ∧
      (executing (.table 0xEA) 0).cpu.step < (defaultParams.instructionOf (.table 0xEA)).seq.length := by
  refine ⟨rfl, ?_, by decide⟩
  intro k μ hμ c
  have hμ' : [nopStep][k]? = some μ := hμ
  match k, hμ' with
  | 0, h => obtain rfl : nopStep = μ := by simpa using h
            exact trivial
  | k + 1, h => simp at h

/-- RESET at each of its nine steps. -/
theorem witness_ResetSteps : ∀ k < 9,
    (executing .reset k).cpu.ready = false ∧ (executing .reset k).cpu.cur = .reset ∧ (executing .reset k).cpu.step = k :=
  fun _ _ => ⟨rfl, rfl, rfl⟩

theorem witness_ResetOnAnyBusAndAnyTable : StepBits.holds defaultParams.stepBits 8 = true ∧ StepBits.holds (some 4) 8 = true := by decide

theorem witness_ResetEndsAfterExactlyNineTicks : StepBits.holds defaultParams.stepBits 8 = true ∧ 8 < 9 ∧ 9 ≤ 9 := by decide

theorem witness_FirstFetchAfterResetIsAtTheVectorPlusOne :
    ((fetchAt [(0x8000, 0x11), (0x8001, 0x22), (0xFFFC, 0x00), (0xFFFD, 0x80)] 0x0000).runReset defaultParams).isSome = true := by decide

theorem witness_ResetOfAFreshMachineIsDeterministic :
    let s := State.new Config.scratchInit [(0x8000, 0xEA), (0xFFFC, 0x00), (0xFFFD, 0x80)]
    s.hostRead 0xFFFC = 0x00 ∧ s.hostRead 0xFFFD = 0x80 ∧ (s.runReset defaultParams).isSome = true := by decide

theorem witness_HostWritesThePcInFetchStateOnly :
    State.reset.cpu.ready = true ∧ (executing .reset 0).cpu.ready = false ∧
      ∃ t u, State.reset.hostSetPc 0x0200 = some t ∧ step t = .next u :=
  ⟨rfl, rfl, _, _, rfl, step_of_ready rfl⟩

/-- Each of the host's four moves answers a state from a state that meets the invariant. -/
theorem witness_HostStepKeepsTheInvariant :
    defaultParams.WellFormed ∧ Inv defaultParams (executing (.table 0xEA) 0) ∧ Inv defaultParams (fetchAt [(0x0200, 0xEA)] 0x0200) ∧
      (∀ op ∈ [HostOp.tick, .reset, .busWrite 0xFFFF 0xEA], (hostStep defaultParams op (executing (.table 0xEA) 0)).isSome = true) ∧
      (hostStep defaultParams (.setPc 0xFFFF) (fetchAt [(0x0200, 0xEA)] 0x0200)).isSome = true :=
  ⟨default_well_formed, ⟨by decide, by decide, fun _ => .inl (by decide), fun h => absurd h (by decide)⟩,
    ⟨by decide, by decide, fun h => absurd h (by decide), fun _ => rfl⟩, by decide, by decide⟩

end Sys2Proof.Tests
end

section
/-! PROOFS. State: spec/10_state.md. -/

namespace Sys2Proof.Machine

/-- The first step from construction: the construction state is in Fetch state at 0x0000, so the step is one read there and the latch. -/
theorem step_new (scratch : ScratchInit) (mem : Memory) :
    let s := State.new scratch mem
    step s = .next { cpu := latchOpcode (s.hostRead 0x0000) s.cpu, bus := { s.bus with trace := s.bus.trace ++ [.read 0x0000] } } :=
  step_of_ready rfl

/-- Settles O1: the values are those `State.new` writes, and the first step is `step_new`. -/
theorem constructionLeavesThePowerOnValues : Obligations.ConstructionLeavesThePowerOnValues := by
  intro scratch mem s
  have pc_latched (b : Byte) : (latchOpcode b s.cpu).dp.pc = 0x0001 := latchOpcode_pc ..
  exact ⟨rfl, rfl, rfl, rfl, rfl, rfl, rfl, rfl, rfl, rfl,
    _, step_new scratch mem, rfl, latchOpcode_ir .., pc_latched _, latchOpcode_ready ..⟩

end Sys2Proof.Machine
end

section
/-! PROOFS. Memory and the bus: spec/20_memory.md. -/

namespace Sys2Proof.Machine

/-- What a read answers after a write by the sequencer: the trace entry it leaves is no part of the answer. -/
theorem flatRam_write_peek (bus : Bus) (addr : Word) (v : Byte) (addr' : Word) :
    (flatRam.write bus addr v).peek addr' = if addr' = addr then v else bus.peek addr' := by
  have same_mem : (flatRam.write bus addr v).mem = (bus.poke addr v).mem := rfl
  rw [Bus.peek_congr same_mem, Bus.peek_poke]

/-- R166 to R175: the cycle of each RESET micro-operation is a read, in place of the pushes too. -/
theorem resetInstruction_reads : ∀ μ ∈ resetInstruction.seq, ∀ c : ProcessorState, ∃ addr k, μ c = .read addr k := by
  intro μ hμ c
  simp only [resetInstruction, List.mem_cons, List.not_mem_nil, or_false] at hμ
  rcases hμ with rfl | rfl | rfl | rfl | rfl | rfl | rfl | rfl | rfl
  all_goals exact ⟨_, _, rfl⟩

/-- Everything a step can do to the bus: nothing, or one read added to the trace. -/
theorem step_bus_cases {s t : State} (e : step s = .next t) :
    t.bus = s.bus ∨ ∃ addr : Word, t.bus = { s.bus with trace := s.bus.trace ++ [.read addr] } := by
  obtain ⟨-, rfl⟩ | ⟨-, -, rfl⟩ | ⟨-, -, rfl⟩ := step_cases e
  · exact .inr ⟨_, rfl⟩
  · exact .inl rfl
  · obtain ⟨-, spent⟩ | ⟨μ, hμ, -, committed⟩ := executeCycle_runOn_cases none resetInstruction s.cpu flatRam s.bus
    · exact .inl (by simp [spent])
    · obtain ⟨addr, k, hread⟩ := resetInstruction_reads μ (List.mem_of_getElem? hμ) s.cpu
      exact .inr ⟨addr, by simp [committed, hread]⟩

/-- A step leaves every written byte as it is. -/
theorem step_mem {s t : State} (e : step s = .next t) : t.bus.mem = s.bus.mem := by
  obtain h | ⟨_, h⟩ := step_bus_cases e <;> rw [h]

/-- A step adds no write transaction to the trace. -/
theorem step_trace_count_write {s t : State} (e : step s = .next t) (addr : Word) (v : Byte) :
    t.bus.trace.count (.write addr v) = s.bus.trace.count (.write addr v) := by
  obtain h | ⟨_, h⟩ := step_bus_cases e
  · rw [h]
  · simp [h, List.count_append]

/-- Settles O8: the two writes by what a read answers after a poke, the step by `step_bus_cases`. -/
theorem readAfterWriteAnswersTheByteWritten : Obligations.ReadAfterWriteAnswersTheByteWritten := by
  refine ⟨flatRam_write_peek, fun s => Bus.peek_poke s.bus, fun s t e => ⟨fun addr => ?_, step_trace_count_write e⟩⟩
  exact Bus.peek_congr (step_mem e) addr

end Sys2Proof.Machine
end

section
/-! PROOFS. Flags, stack pointer and register arithmetic: spec/40_flags_and_stack_ops.md. -/

namespace Sys2Proof.Machine

/-- R117: the stack address lies in the stack page. -/
theorem stackAddress_mem_page (sp : Byte) : 0x0100 ≤ (stackAddress sp).toNat ∧ (stackAddress sp).toNat ≤ 0x01FF := by
  have h := sp.isLt
  rw [stackAddress_toNat]
  omega

/-- R118 on the value. -/
theorem spDecrement_toNat (sp : Byte) : ((spDecrement sp).toNat : Int) = ((sp.toNat : Int) - 1) % 256 := by
  have h := sp.isLt
  have hsub : (spDecrement sp).toNat = (255 + sp.toNat) % 256 := BitVec.toNat_sub sp 1
  omega

/-- R119 on the value. -/
theorem spIncrement_toNat (sp : Byte) : (spIncrement sp).toNat = (sp.toNat + 1) % 256 :=
  BitVec.toNat_add sp 1

@[simp] theorem spIncrement_spDecrement (sp : Byte) : spIncrement (spDecrement sp) = sp :=
  BitVec.sub_add_cancel sp 1

@[simp] theorem spDecrement_spIncrement (sp : Byte) : spDecrement (spIncrement sp) = sp :=
  BitVec.add_sub_cancel sp 1

/-- `n` decrements subtract `n`, modulo 256. -/
theorem spDecrement_iterate (n : Nat) (sp : Byte) : spDecrement^[n] sp = sp - BitVec.ofNat 8 n := by
  induction n with
  | zero => exact (BitVec.sub_zero sp).symm
  | succ n ih =>
    calc spDecrement^[n + 1] sp = spDecrement (spDecrement^[n] sp) := Function.iterate_succ_apply' ..
      _ = sp - BitVec.ofNat 8 n - 1 := by rw [ih, spDecrement]
      _ = sp - (BitVec.ofNat 8 n + 1) := sub_sub ..
      _ = sp - BitVec.ofNat 8 (n + 1) := congrArg (sp - ·) (BitVec.ofNat_add n 1).symm

/-- R120 on the value. -/
theorem pcIncrement_toNat (pc : Word) : (pcIncrement pc).toNat = (pc.toNat + 1) % 65536 :=
  BitVec.toNat_add pc 1

/-- Settles O23: 256 decrements subtract 256, which is 0 in a byte (`spDecrement_iterate`); the two corners of the page are closed facts. -/
theorem stackPointerWrapsWithinTheStackPage : Obligations.StackPointerWrapsWithinTheStackPage := by
  have full_circle (sp : Byte) : spDecrement^[256] sp = sp := by
    rw [spDecrement_iterate]
    exact BitVec.sub_zero sp
  exact ⟨spDecrement_toNat, spIncrement_toNat, fun sp => ⟨spIncrement_spDecrement sp, spDecrement_spIncrement sp⟩,
    by decide, by decide, full_circle⟩

/-- Settles O22: the value is `stackAddress_toNat`, the OR is how the model forms the address. -/
theorem stackAddressIsTheStackPagePlusSp : Obligations.StackAddressIsTheStackPagePlusSp :=
  fun sp => ⟨stackAddress_toNat sp, rfl, stackAddress_mem_page sp⟩

/-- Settles O24: the increment on the value, and its corner at the top of the address space. -/
theorem programCounterIncrementWraps : Obligations.ProgramCounterIncrementWraps :=
  ⟨pcIncrement_toNat, by decide⟩

/-- Settles O25: OR and addition agree by `wordOf_toNat`; the OR is how the model forms the word. -/
theorem wordAssemblyPlacesTheTwoBytes : Obligations.WordAssemblyPlacesTheTwoBytes :=
  fun high low => ⟨wordOf_toNat high low, rfl⟩

end Sys2Proof.Machine
end

section
/-! PROOFS. The sequencer's tick: spec/41_sequencer_tick.md. -/

namespace Sys2Proof.Machine

/-! ### One tick of the machine, and one step -/

/-- R131: in Fetch state a tick is the Fetch cycle. -/
theorem State.tickWith_of_ready {P : Params} {s : State} (h : s.cpu.ready = true) :
    s.tickWith P = s.runCycle (fetchCycle s.cpu) := by
  rw [State.tickWith, tickCycle_of_ready h, fetchCycle]

/-- R132: in Execute state a tick is the Execute cycle of the row that `cur` selects. -/
theorem State.tickWith_of_not_ready {P : Params} {s : State} (h : s.cpu.ready = false) :
    s.tickWith P = s.runCycle (executeCycle P.stepBits (P.instructionOf s.cpu.cur) s.cpu) := by
  rw [State.tickWith, tickCycle_of_not_ready h]

/-- An Execute tick of a row that holds the default no-op only sets `ready`. -/
theorem State.tickWith_of_nop {P : Params} {s : State} (h : s.cpu.ready = false) (hc : P.instructionOf s.cpu.cur = nopInstruction) :
    s.tickWith P = { s with cpu := { s.cpu with ready := true } } := by
  rw [State.tickWith_of_not_ready h, hc, executeCycle_nop]
  rfl

/-- The step, written through the decoder and `exec`, is the tick of the sequencer with the default table. -/
theorem step_eq_tickWith (s : State) : step s = .next (s.tickWith defaultParams) := by
  cases hr : s.cpu.ready with
  | true =>
    rw [step_of_ready hr, State.tickWith_of_ready hr]
    rfl
  | false =>
    cases hc : s.cpu.cur with
    | table opcode => rw [step_of_table hr hc, State.tickWith_of_nop hr (by rw [hc]; rfl)]
    | placeholder => rw [step_of_placeholder hr hc, State.tickWith_of_nop hr (by rw [hc]; rfl)]
    | reset =>
      rw [step_of_reset hr hc, State.tickWith_of_not_ready hr, hc]
      rfl

/-- Settles O27: the step is the tick (`step_eq_tickWith`), and `ready` chooses its one phase. -/
theorem stepIsExactlyOnePhaseOfTick : Obligations.StepIsExactlyOnePhaseOfTick :=
  fun s => ⟨step_eq_tickWith s, State.tickWith_of_ready, State.tickWith_of_not_ready⟩

/-! ### One tick with any table, on any bus -/

section tick
variable {σ : Type} {P : Params} {B : BusDevice σ} {c : ProcessorState} {bus bus' : σ} {μ : MicroOp} {e : Effect}

/-- R131: a Fetch tick is one read at the old `pc`, and the latch of the byte read. -/
theorem tickOn_of_ready (h : c.ready = true) :
    tickOn P B (c, bus) = (latchOpcode (B.read bus c.dp.pc).1 c, (B.read bus c.dp.pc).2) := by
  rw [tickOn, tickCycle_of_ready h, BusCycle.runOn]

/-- R132, R139: an Execute tick in range runs the micro-operation at `step` and commits its effect. -/
theorem tickOn_of_microOp (hr : c.ready = false) (hμ : (P.instructionOf c.cur).seq[c.step]? = some μ)
    (hrun : (μ c).runOn B bus = (e, bus')) :
    tickOn P B (c, bus) = (commitEffect P.stepBits (P.instructionOf c.cur).seq.length c e, bus') := by
  rw [tickOn, tickCycle_of_not_ready hr, executeCycle_of_some hμ, BusCycle.runOn_map, hrun]

end tick

/-- Settles O28: the Fetch tick is `tickOn_of_ready`, and a table row holds what TABLE holds there. -/
theorem fetchPhaseLatchesTheOpcode : Obligations.FetchPhaseLatchesTheOpcode :=
  fun _ _ _ _ _ h => ⟨tickOn_of_ready h, rfl⟩

/-! ### What a directive commits -/

section commit
variable {bits : StepBits} {length : Nat} {c : ProcessorState} {e : Effect}

/-- The state an effect commits, by what it does to `step` and `ready`: the datapath is the effect's own, `cur` stays. -/
theorem commitEffect_eq {step : Nat} {ready : Bool} (hstep : (commitEffect bits length c e).step = step)
    (hready : (commitEffect bits length c e).ready = ready) :
    commitEffect bits length c e = { dp := e.dp, cur := c.cur, step := step, ready := ready } := by
  rw [← commitEffect_dp bits length c e, ← commitEffect_cur bits length c e, ← hstep, ← hready]

/-- R133 with an unbounded counter, from a `step` in range: the clamp fires exactly from the last entry. -/
theorem commitEffect_of_advance (hr : c.ready = false) (hlt : c.step < length) (he : e.ctl = .advance) :
    commitEffect none length c e =
      { dp := e.dp, cur := c.cur, step := c.step + 1, ready := e.setReady || decide (c.step + 1 = length) } := by
  have next_step : (commitEffect none length c e).step = c.step + 1 := by
    rw [commitEffect_step, he]
    rfl
  have clamp_iff : length ≤ c.step + 1 ↔ c.step + 1 = length := by omega
  refine commitEffect_eq next_step ?_
  rw [commitEffect_ready, next_step]
  simp [hr, he, clamp_iff]

/-- R134: Complete sets `ready`, wherever `step` stands and whatever the width of the counter. -/
theorem commitEffect_of_complete (he : e.ctl = .complete) :
    commitEffect bits length c e = { dp := e.dp, cur := c.cur, step := c.step, ready := true } := by
  refine commitEffect_eq ?_ ?_
  · rw [commitEffect_step, he]
  · simp [commitEffect_ready, he]

end commit

/-- Settles O29: the micro-operation stands in the sequence, so `step` is in range, and Advance commits as `commitEffect_of_advance` says. -/
theorem advanceMovesToTheNextMicroOperation : Obligations.AdvanceMovesToTheNextMicroOperation := by
  intro σ P B c bus bus' μ e hbits hr hμ hrun he
  have in_range : c.step < (P.instructionOf c.cur).seq.length := (List.getElem?_eq_some_iff.mp hμ).1
  rw [tickOn_of_microOp hr hμ hrun, hbits, commitEffect_of_advance hr in_range he]

/-- Settles O30: the tick commits the effect (`tickOn_of_microOp`), and Complete commits as `commitEffect_of_complete` says. -/
theorem completeReturnsToFetchState : Obligations.CompleteReturnsToFetchState := by
  intro σ P B c bus bus' μ e hr hμ hrun he
  rw [tickOn_of_microOp hr hμ hrun, commitEffect_of_complete he]

end Sys2Proof.Machine
end

section
/-! PROOFS. The RESET microcode: spec/43_reset_microcode.md. -/

namespace Sys2Proof.Machine

/-! ### One step of the RESET row -/

section resetRow
variable {s : State} {μ : MicroOp}

/-- A step of the RESET row commits the effect of the micro-operation at `step`, on the bus that its transaction leaves. -/
theorem step_of_reset_microOp {e : Effect} {bus : Bus} (hr : s.cpu.ready = false) (hc : s.cpu.cur = .reset)
    (hμ : resetInstruction.seq[s.cpu.step]? = some μ) (hrun : (μ s.cpu).runOn flatRam s.bus = (e, bus)) :
    step s = .next { cpu := commitEffect none 9 s.cpu e, bus := bus } := by
  rw [step_of_reset hr hc, executeCycle_of_some hμ, resetInstruction_length, State.runCycle, BusCycle.runOn_map, hrun]

/-- R166: RESET steps 1 to 8 advance. Such a step leaves the datapath `dp` of the micro-operation after one read at `addr`; the clamp
does not fire, because the next entry is still one of the nine. -/
theorem step_of_reset_advance {addr : Word} {dp : Datapath} (hr : s.cpu.ready = false) (hc : s.cpu.cur = .reset)
    (hμ : resetInstruction.seq[s.cpu.step]? = some μ) (hlt : s.cpu.step < 8)
    (hrun : (μ s.cpu).runOn flatRam s.bus = (Effect.done dp .advance, (flatRam.read s.bus addr).2)) :
    step s = .next
      { cpu := { s.cpu with dp := dp, step := s.cpu.step + 1 }
        bus := { s.bus with trace := s.bus.trace ++ [.read addr] } } := by
  have not_last : s.cpu.step + 1 ≠ 9 := by omega
  have committed : commitEffect none 9 s.cpu (Effect.done dp .advance) = { s.cpu with dp := dp, step := s.cpu.step + 1 } := by
    rw [commitEffect_of_advance hr (by omega) rfl]
    simp [Effect.done, not_last, hr]
  rw [step_of_reset_microOp hr hc hμ hrun, committed, flatRam_read_snd]

end resetRow

/-- Settles O45: the micro-operation is `resetStep1`, and its three flag operations are one expression on the byte (`resetFlags_eq`). -/
theorem resetStep1ClearsSpAndIrAndSetsTheFlags : Obligations.ResetStep1ClearsSpAndIrAndSetsTheFlags := by
  intro s hr hc hstep
  have row : resetInstruction.seq[s.cpu.step]? = some resetStep1 := by simp [resetInstruction_getElem?, hstep]
  rw [step_of_reset_advance hr hc row (by omega) rfl, hstep, resetFlags_eq]
  rfl

/-- Settles O46: `resetStep2` and `resetStep3` return the datapath they were given, whatever byte the bus answers. -/
theorem resetSteps2And3ReadAndDiscard : Obligations.ResetSteps2And3ReadAndDiscard := by
  intro s hr hc hstep
  rcases hstep with hstep | hstep
  · have row : resetInstruction.seq[s.cpu.step]? = some resetStep2 := by simp [resetInstruction_getElem?, hstep]
    exact step_of_reset_advance hr hc row (by omega) rfl
  · have row : resetInstruction.seq[s.cpu.step]? = some resetStep3 := by simp [resetInstruction_getElem?, hstep]
    exact step_of_reset_advance hr hc row (by omega) rfl

/-- Settles O50: `resetStep9` reads at `pc` and increments it (`pcRead`), and Complete keeps `step` and sets `ready`. -/
theorem resetStep9ReadsTheOpcodeAndEnds : Obligations.ResetStep9ReadsTheOpcodeAndEnds := by
  intro s hr hc hstep
  have row : resetInstruction.seq[s.cpu.step]? = some resetStep9 := by simp [resetInstruction_getElem?, hstep]
  rw [step_of_reset_microOp hr hc row rfl, commitEffect_of_complete rfl]
  rfl

end Sys2Proof.Machine
end

section
/-! PROOFS. The invariant of the machine, step by step and along a run of the host: spec/10_state.md section 6. -/

namespace Sys2Proof.Machine

/-- R138, R153: the table of `new()` is well formed, because the no-op leaves the status byte alone. -/
theorem defaultParams_wellFormed : defaultParams.WellFormed := by
  intro opcode μ hμ c unused_set
  obtain rfl : μ = nopStep := List.mem_singleton.mp hμ
  exact unused_set

/-- In Fetch state the two clauses about Execute state hold of themselves. -/
theorem inv_of_ready {P : Params} {s : State} (mem_wf : Memory.wf s.bus.mem = true)
    (unused_set : s.cpu.dp.p.getLsbD 5 = true) (hr : s.cpu.ready = true) : Inv P s where
  mem_wf := mem_wf
  unused_set := unused_set
  step_in_range not_ready := absurd (hr.symm.trans not_ready) (by decide)
  placeholder_idle _ := hr

/-- After a tick `cur` is the row just fetched, or the row that was executing. -/
theorem State.tickWith_cur (P : Params) (s : State) :
    (s.tickWith P).cpu.cur = if s.cpu.ready then .table (s.bus.peek s.cpu.dp.pc) else s.cpu.cur := by
  cases hr : s.cpu.ready with
  | true => rw [State.tickWith_of_ready hr]; rfl
  | false =>
    rw [State.tickWith_of_not_ready hr]
    exact executeCycle_runOn_cur ..

/-- R155: a tick never puts the placeholder in Execute state. -/
theorem State.tickWith_placeholder_idle {P : Params} {s : State} (idle : s.cpu.cur = .placeholder → s.cpu.ready = true)
    (h : (s.tickWith P).cpu.cur = .placeholder) : (s.tickWith P).cpu.ready = true := by
  rw [State.tickWith_cur] at h
  cases hr : s.cpu.ready with
  | true => simp [hr] at h
  | false =>
    have cur_kept : s.cpu.cur = .placeholder := by simpa [hr] using h
    exact absurd ((idle cur_kept).symm.trans hr) (by decide)

/-- A tick of well-formed microcode keeps the invariant. -/
theorem inv_tickWith {P : Params} {s : State} (hP : P.WellFormed) (h : Inv P s) : Inv P (s.tickWith P) where
  mem_wf := State.tickWith_mem_wf P s h.mem_wf
  unused_set := State.tickWith_unused hP s h.unused_set
  step_in_range := State.tickWith_step_in_range P s
  placeholder_idle := State.tickWith_placeholder_idle h.placeholder_idle

/-- The three set-up writes of `reset()` keep the invariant: RESET is not empty, so `step = 0` is in range. -/
theorem inv_beginReset {P : Params} {s : State} (h : Inv P s) : Inv P s.beginReset where
  mem_wf := h.mem_wf
  unused_set := h.unused_set
  step_in_range _ := .inl (by decide : 0 < resetInstruction.seq.length)
  placeholder_idle hc := absurd hc (by simp [State.beginReset])

/-- What every tick keeps, the loop of `reset()` keeps. -/
theorem tickUntilReady_keeps {σ : Type} {P : Params} {B : BusDevice σ} {q : ProcessorState × σ → Prop}
    (tick_keeps : ∀ m, q m → q (tickOn P B m)) {fuel : Nat} {m m' : ProcessorState × σ} (hm : q m)
    (e : tickUntilReady P B fuel m = some m') : q m' := by
  induction fuel generalizing m with
  | zero => cases e
  | succ fuel ih =>
    rw [tickUntilReady] at e
    split at e
    · cases e
      exact tick_keeps m hm
    · exact ih (tick_keeps m hm) e

/-- The state that `reset()` leaves is the one its loop ends in. -/
theorem State.runReset_eq_some {P : Params} {s t : State} :
    s.runReset P = some t ↔ resetOn P flatRam 9 (s.cpu, s.bus) = some (t.cpu, t.bus) := by
  unfold State.runReset
  cases resetOn P flatRam 9 (s.cpu, s.bus) with
  | none => simp
  | some m => rw [Option.some_inj, Option.some_inj, State.mk.injEq, Prod.mk.injEq]

/-- `reset()` keeps the invariant, whatever the width of the step counter: where it ends at all, only ticks have run since the set-up. -/
theorem inv_runReset {P : Params} {s t : State} (hP : P.WellFormed) (h : Inv P s) (e : s.runReset P = some t) : Inv P t :=
  tickUntilReady_keeps (q := fun m => Inv P { cpu := m.1, bus := m.2 }) (fun _ => inv_tickWith hP) (inv_beginReset h)
    (State.runReset_eq_some.mp e)

/-- A host write of `pc` keeps the invariant. -/
theorem inv_hostSetPc {P : Params} {s t : State} {v : Word} (h : Inv P s) (e : s.hostSetPc v = some t) : Inv P t := by
  unfold State.hostSetPc at e
  split at e
  · next hr =>
    cases e
    exact inv_of_ready h.mem_wf h.unused_set hr
  · cases e

/-- R64: a write keeps memory canonical, because a bus address is below 65536. -/
theorem Memory.wf_write {m : Memory} (h : Memory.wf m = true) (addr : Word) (v : Byte) :
    Memory.wf (Memory.write m addr.toNat v) = true :=
  Memory.risingFrom_write 0 m addr.toNat v h (Nat.zero_le _) addr.isLt

/-- A host write of the bus keeps the invariant. -/
theorem inv_hostWrite {P : Params} {s : State} (h : Inv P s) (addr : Word) (v : Byte) : Inv P (s.hostWrite addr v) where
  mem_wf := Memory.wf_write h.mem_wf addr v
  unused_set := h.unused_set
  step_in_range := h.step_in_range
  placeholder_idle := h.placeholder_idle

/-- Settles O3: the step is a tick of the default table (`step_eq_tickWith`), and a tick of well-formed microcode keeps each clause. -/
theorem stepKeepsTheInvariant : Obligations.StepKeepsTheInvariant := by
  intro s t h e
  rw [step_eq_tickWith] at e
  cases e
  exact inv_tickWith defaultParams_wellFormed h

/-- Settles O58: one lemma for each of the host's four moves. -/
theorem hostStepKeepsTheInvariant : Obligations.HostStepKeepsTheInvariant := by
  intro P s t op hP h e
  cases op with
  | tick =>
    cases e
    exact inv_tickWith hP h
  | reset => exact inv_runReset hP h e
  | setPc v => exact inv_hostSetPc h e
  | busWrite addr v =>
    cases e
    exact inv_hostWrite h addr v

/-- The invariant holds at construction: the machine starts in Fetch state, with `p = 0x24`. -/
theorem inv_new (P : Params) (scratch : ScratchInit) {mem : Memory} (h : Memory.wf mem = true) : Inv P (State.new scratch mem) :=
  inv_of_ready h (by decide : (0x24 : Byte).getLsbD 5 = true) rfl

/-- Every run of the host keeps the invariant. -/
theorem inv_hostRun {P : Params} (hP : P.WellFormed) {ops : List HostOp} {s t : State} (h : Inv P s)
    (e : hostRun P ops s = some t) : Inv P t := by
  induction ops generalizing s with
  | nil =>
    cases e
    exact h
  | cons op ops ih =>
    rw [hostRun] at e
    split at e
    · next s' move => exact ih (hostStepKeepsTheInvariant P s s' op hP h move) e
    · cases e

/-- Settles O4: `inv_new` starts the run and `inv_hostRun` carries it. -/
theorem hostRunsFromConstructionKeepTheInvariant : Obligations.HostRunsFromConstructionKeepTheInvariant :=
  fun P scratch _ _ _ hP mem_wf e => inv_hostRun hP (inv_new P scratch mem_wf) e

/-- Settles O2: `State.reset` is a construction state over the empty memory, which is canonical. -/
theorem constructionMeetsTheInvariant : Obligations.ConstructionMeetsTheInvariant :=
  ⟨fun P scratch _ mem_wf => inv_new P scratch mem_wf, inv_new defaultParams Config.scratchInit rfl⟩

end Sys2Proof.Machine
end

section
/-! PROOFS. The tick with any microcode: spec/41_sequencer_tick.md. -/

namespace Sys2Proof.Machine

/-! ### The directives, the clamp, and the width of the counter -/

/-- R135 with an unbounded counter: an out-of-range target is what makes the clamp fire. -/
theorem commitEffect_of_branch {length n : Nat} {c : ProcessorState} {e : Effect} (hr : c.ready = false) (he : e.ctl = .branch n) :
    commitEffect none length c e = { dp := e.dp, cur := c.cur, step := n, ready := e.setReady || decide (length ≤ n) } := by
  have target : (commitEffect none length c e).step = n := by
    rw [commitEffect_step, he]
    rfl
  refine commitEffect_eq target ?_
  rw [commitEffect_ready, target]
  simp [hr, he]

/-- Settles O31: the tick commits the effect, and Branch commits as `commitEffect_of_branch` says. -/
theorem branchJumpsWithinTheMicrocode : Obligations.BranchJumpsWithinTheMicrocode := by
  intro σ P B c bus bus' μ e n hbits hr hμ hrun he
  rw [tickOn_of_microOp hr hμ hrun, hbits, commitEffect_of_branch hr he]

/-- R132: an Execute tick is the Execute cycle of the row that `cur` selects. -/
theorem tickOn_of_not_ready {σ : Type} {P : Params} {B : BusDevice σ} {c : ProcessorState} {bus : σ} (hr : c.ready = false) :
    tickOn P B (c, bus) = (executeCycle P.stepBits (P.instructionOf c.cur) c).runOn B bus := by
  rw [tickOn, tickCycle_of_not_ready hr]

/-- Settles O32: an Execute cycle that leaves `ready` false leaves `step` in range. -/
theorem clampHoldsAfterEveryExecuteTick : Obligations.ClampHoldsAfterEveryExecuteTick := by
  intro σ P B c bus hr
  rw [tickOn_of_not_ready hr]
  refine ⟨executeCycle_runOn_cur .., fun past_end => ?_⟩
  by_contra not_ready
  exact Nat.not_lt.mpr past_end (executeCycle_runOn_step_lt _ _ _ _ _ (Bool.eq_false_of_not_eq_true not_ready))

/-- Settles O33: out of range there is no micro-operation, and the clamp is all that is left. -/
theorem outOfRangeExecuteTickIsSpent : Obligations.OutOfRangeExecuteTickIsSpent := by
  intro σ P B c bus hr past_end
  rw [tickOn_of_not_ready hr, executeCycle_of_le past_end, BusCycle.runOn_quiet]

/-- R42: an unbounded counter keeps every number. -/
@[simp] theorem StepBits.wrap_none (n : Nat) : StepBits.wrap none n = n := rfl

/-- A counter of `k` bits keeps a number below `2 ^ k`. -/
theorem StepBits.wrap_of_lt {k n : Nat} (h : n < 2 ^ k) : StepBits.wrap (some k) n = n := Nat.mod_eq_of_lt h

/-- D6: a counter that holds the next index and the target of the effect's Branch commits the effect as the unbounded one does. -/
theorem commitEffect_of_wide {k length : Nat} {c : ProcessorState} {e : Effect} (next_fits : c.step + 1 < 2 ^ k)
    (target_fits : ∀ n, e.ctl = .branch n → n < 2 ^ k) :
    commitEffect (some k) length c e = commitEffect none length c e := by
  have same_directive (d : ProcessorState) (hd : d.step = c.step) :
      applyDirective (some k) e.ctl d = applyDirective none e.ctl d := by
    cases he : e.ctl with
    | advance => simp only [applyDirective, hd, StepBits.wrap_of_lt next_fits, StepBits.wrap_none]
    | complete => rfl
    | branch n => simp only [applyDirective, StepBits.wrap_of_lt (target_fits n he), StepBits.wrap_none]
  exact congrArg (clampReady length) (same_directive _ rfl)

/-- D6, one Execute cycle: in range it commits one effect, out of range none. -/
theorem executeCycle_runOn_of_wide {σ : Type} {k : Nat} {ins : Instruction} {c : ProcessorState} (B : BusDevice σ) (bus : σ)
    (length_fits : ins.seq.length < 2 ^ k)
    (targets_fit : ∀ (j : Nat) (μ : MicroOp), ins.seq[j]? = some μ → (μ c).Always fun e => ∀ n, e.ctl = .branch n → n < 2 ^ k) :
    (executeCycle (some k) ins c).runOn B bus = (executeCycle none ins c).runOn B bus := by
  rcases Nat.lt_or_ge c.step ins.seq.length with in_range | past_end
  · have row := List.getElem?_eq_getElem in_range
    have target_fits := (targets_fit c.step _ row).runOn B bus
    rw [executeCycle_of_some row, executeCycle_of_some row, BusCycle.runOn_map, BusCycle.runOn_map,
      commitEffect_of_wide (by omega) target_fits]
  · rw [executeCycle_of_le past_end, executeCycle_of_le past_end]

/-- Settles O36: a Fetch tick does not count, and an Execute tick is `executeCycle_runOn_of_wide`. -/
theorem wideEnoughStepCounterBehavesAsUnbounded : Obligations.WideEnoughStepCounterBehavesAsUnbounded := by
  intro σ P k B c bus length_fits targets_fit
  cases hr : c.ready with
  | true => rw [tickOn_of_ready hr, tickOn_of_ready hr]
  | false =>
    rw [tickOn_of_not_ready hr, tickOn_of_not_ready hr]
    exact executeCycle_runOn_of_wide B bus length_fits targets_fit

/-! ### The bus during a tick -/

/-- The result of a cycle depends on the bus only through the byte answered to the cycle's own read. -/
theorem BusCycle.runOn_fst_congr {α σ τ : Type} {cycle : BusCycle α} {B : BusDevice σ} {C : BusDevice τ} {b : σ} {d : τ}
    (same_answer : ∀ addr, cycle.events = [.read addr] → (B.read b addr).1 = (C.read d addr).1) :
    (cycle.runOn B b).1 = (cycle.runOn C d).1 := by
  cases cycle with
  | quiet r => rfl
  | read addr k => exact congrArg k (same_answer addr rfl)
  | write addr v r => rfl

/-- Settles O13: a tick is one bus cycle. -/
theorem tickDependsOnTheBusOnlyThroughItsAnswer : Obligations.TickDependsOnTheBusOnlyThroughItsAnswer :=
  fun _ _ _ _ _ _ _ _ same_answer => BusCycle.runOn_fst_congr same_answer

/-- Settles O11: the trace grows by the events of the tick's one bus cycle. -/
theorem eachTickMakesAtMostOneBusTransaction : Obligations.EachTickMakesAtMostOneBusTransaction :=
  fun P s => ⟨(tickCycle P s.cpu).events, BusCycle.length_events_le_one _, BusCycle.runOn_flatRam_trace _ _⟩

/-! ### Instructions of one shape -/

/-- An Execute tick in range commits one effect of the micro-operation at `step`, with whatever always holds of it. -/
theorem tickOn_commits {σ : Type} {P : Params} {c : ProcessorState} {q : Effect → Prop} (B : BusDevice σ) (bus : σ)
    (hr : c.ready = false) (in_range : c.step < (P.instructionOf c.cur).seq.length)
    (hq : ∀ μ, (P.instructionOf c.cur).seq[c.step]? = some μ → (μ c).Always q) :
    ∃ e, q e ∧ (tickOn P B (c, bus)).1 = commitEffect P.stepBits (P.instructionOf c.cur).seq.length c e := by
  have row := List.getElem?_eq_getElem in_range
  refine ⟨_, (hq _ row).runOn B bus, ?_⟩
  rw [tickOn_of_not_ready hr, executeCycle_of_some row, BusCycle.runOn_map]

theorem State.tickWith_commits {P : Params} {s : State} {q : Effect → Prop} (hr : s.cpu.ready = false)
    (in_range : s.cpu.step < (P.instructionOf s.cpu.cur).seq.length)
    (hq : ∀ μ, (P.instructionOf s.cpu.cur).seq[s.cpu.step]? = some μ → (μ s.cpu).Always q) :
    ∃ e, q e ∧ (s.tickWith P).cpu = commitEffect P.stepBits (P.instructionOf s.cpu.cur).seq.length s.cpu e :=
  tickOn_commits flatRam s.bus hr in_range hq

/-- Settles O44: Advance from an entry that is not the last, Complete, and Branch to a valid index each leave `step` in range. -/
theorem clampNeverFiresInTidyMicrocode : Obligations.ClampNeverFiresInTidyMicrocode := by
  intro σ P B c bus hbits hr tidy in_range
  obtain ⟨e, he, committed⟩ := tickOn_commits B bus hr in_range fun μ row => tidy c.step μ row c
  rw [committed, hbits, commitEffect_step]
  cases hctl : e.ctl with
  | advance => simpa [hctl] using he
  | complete => exact in_range
  | branch n => simpa [hctl] using he

section shape
variable {P : Params} {s : State} (hbits : P.stepBits = none) (hr : s.cpu.ready = false)
include hbits hr

/-- R144, one tick: an Endless instruction keeps executing, in range. -/
theorem Instruction.Endless.tickWith (endless : (P.instructionOf s.cpu.cur).Endless)
    (in_range : s.cpu.step < (P.instructionOf s.cpu.cur).seq.length) :
    (s.tickWith P).cpu.ready = false ∧ (s.tickWith P).cpu.cur = s.cpu.cur ∧
      (s.tickWith P).cpu.step < (P.instructionOf s.cpu.cur).seq.length := by
  obtain ⟨e, ⟨not_set, hctl⟩, committed⟩ := State.tickWith_commits hr in_range fun μ row => endless s.cpu.step μ row s.cpu
  rw [committed, hbits]
  cases he : e.ctl with
  | advance =>
    have next_in_range : s.cpu.step + 1 < (P.instructionOf s.cpu.cur).seq.length := by simpa [he] using hctl
    rw [commitEffect_of_advance hr in_range he]
    exact ⟨by simp [not_set, next_in_range.ne], rfl, next_in_range⟩
  | complete => simp [he] at hctl
  | branch n =>
    have target_in_range : n < (P.instructionOf s.cpu.cur).seq.length := by simpa [he] using hctl
    rw [commitEffect_of_branch hr he]
    exact ⟨by simp [not_set, target_in_range], rfl, target_in_range⟩

/-- R140: an entry of a straight-line Instruction that is not the last moves on to the next one. -/
theorem Instruction.StraightLine.tickWith_of_lt (straight : (P.instructionOf s.cpu.cur).StraightLine)
    (not_last : s.cpu.step + 1 < (P.instructionOf s.cpu.cur).seq.length) :
    (s.tickWith P).cpu.ready = false ∧ (s.tickWith P).cpu.cur = s.cpu.cur ∧ (s.tickWith P).cpu.step = s.cpu.step + 1 := by
  have in_range := Nat.lt_of_succ_lt not_last
  obtain ⟨e, ⟨not_set, hctl⟩, committed⟩ := State.tickWith_commits hr in_range fun μ row => straight s.cpu.step μ row s.cpu
  rw [if_neg not_last.ne] at hctl
  rw [committed, hbits, commitEffect_of_advance hr in_range hctl]
  exact ⟨by simp [not_set, not_last.ne], rfl, rfl⟩

omit hbits in
/-- R141: the last entry of a straight-line Instruction completes, and `step` stays at it. -/
theorem Instruction.StraightLine.tickWith_of_last (straight : (P.instructionOf s.cpu.cur).StraightLine)
    (last : s.cpu.step + 1 = (P.instructionOf s.cpu.cur).seq.length) :
    (s.tickWith P).cpu.ready = true ∧ (s.tickWith P).cpu.step = s.cpu.step := by
  obtain ⟨e, ⟨-, hctl⟩, committed⟩ := State.tickWith_commits hr (by omega) fun μ row => straight s.cpu.step μ row s.cpu
  rw [if_pos last] at hctl
  rw [committed, commitEffect_of_complete hctl]
  exact ⟨rfl, rfl⟩

end shape

/-- Settles O35: by induction on the ticks, with `step` in range beside the two clauses. -/
theorem endlessMicrocodeNeverReturnsToFetch : Obligations.EndlessMicrocodeNeverReturnsToFetch := by
  intro P s n hbits hr in_range endless
  suffices keeps_executing : (s.ticksWith P n).cpu.ready = false ∧ (s.ticksWith P n).cpu.cur = s.cpu.cur ∧
      (s.ticksWith P n).cpu.step < (P.instructionOf s.cpu.cur).seq.length by
    obtain ⟨ready, cur, -⟩ := keeps_executing
    exact ⟨ready, cur⟩
  induction n with
  | zero => exact ⟨hr, rfl, in_range⟩
  | succ n ih =>
    obtain ⟨ready, cur, step_lt⟩ := ih
    rw [State.ticksWith_succ, ← cur]
    rw [← cur] at endless step_lt
    exact endless.tickWith hbits ready step_lt

/-- R140: after the Fetch tick and `k` more, a straight-line Instruction of more than `k` entries is executing entry `k`. -/
theorem ticksWith_of_straightLine {P : Params} {s : State} (hbits : P.stepBits = none) (hr : s.cpu.ready = true)
    (straight : (P.table (s.hostRead s.cpu.dp.pc)).StraightLine) {k : Nat} (hk : k < (P.table (s.hostRead s.cpu.dp.pc)).seq.length) :
    (s.ticksWith P (k + 1)).cpu.ready = false ∧ (s.ticksWith P (k + 1)).cpu.cur = .table (s.hostRead s.cpu.dp.pc) ∧
      (s.ticksWith P (k + 1)).cpu.step = k := by
  induction k with
  | zero =>
    have fetched : s.ticksWith P 1 = s.runCycle (fetchCycle s.cpu) := State.tickWith_of_ready hr
    rw [fetched]
    exact ⟨rfl, rfl, rfl⟩
  | succ k ih =>
    obtain ⟨ready, cur, step_eq⟩ := ih (Nat.lt_of_succ_lt hk)
    have row : P.instructionOf (s.ticksWith P (k + 1)).cpu.cur = P.table (s.hostRead s.cpu.dp.pc) := by rw [cur]; rfl
    have moved := Instruction.StraightLine.tickWith_of_lt hbits ready (by rwa [row]) (by rwa [row, step_eq])
    rwa [← State.ticksWith_succ, cur, step_eq] at moved

/-- Settles O34: `ticksWith_of_straightLine` up to the last entry, which completes. -/
theorem straightLineInstructionTakesOneTickPerEntryAfterTheFetch :
    Obligations.StraightLineInstructionTakesOneTickPerEntryAfterTheFetch := by
  intro P s ins hbits hr not_empty straight
  have executing {n : Nat} (one_le : 1 ≤ n) (n_le : n ≤ ins.seq.length) :
      (s.ticksWith P n).cpu.ready = false ∧ (s.ticksWith P n).cpu.cur = .table (s.hostRead s.cpu.dp.pc) ∧
        (s.ticksWith P n).cpu.step = n - 1 := by
    obtain ⟨k, rfl⟩ := Nat.exists_eq_add_of_le' one_le
    exact ticksWith_of_straightLine hbits hr straight n_le
  have one_le : 1 ≤ ins.seq.length := List.length_pos_iff.mpr not_empty
  obtain ⟨ready, cur, at_last⟩ := executing one_le le_rfl
  have row : P.instructionOf (s.ticksWith P ins.seq.length).cpu.cur = ins := by rw [cur]; rfl
  have completed := Instruction.StraightLine.tickWith_of_last ready (by rwa [row])
    (by rw [row, at_last]; exact Nat.sub_add_cancel one_le)
  rw [Nat.add_comm 1, State.ticksWith_succ]
  refine ⟨fun n h1 h2 => ?_, completed.1, completed.2.trans at_last⟩
  obtain ⟨ready, -, step_eq⟩ := executing h1 h2
  exact ⟨ready, step_eq⟩

end Sys2Proof.Machine
end

section
/-! PROOFS. One step of the documented hardware: spec/43_reset_microcode.md section 2, and what its steps read, write and put on the bus. -/

namespace Sys2Proof.Machine

/-! ### RESET steps 4 to 8, and a step past the end -/

/-- The stack address as the base of the page plus `sp` (R117). -/
theorem stackAddress_eq_add (sp : Byte) : stackAddress sp = 0x0100 + sp.setWidth 16 := by
  apply BitVec.eq_of_toNat_eq
  rw [stackAddress_toNat]
  bv_omega

/-- Settles O47: the three micro-operations are one suppressed push, whose address is formed before `sp` moves. -/
theorem resetSteps4To6SuppressThePushes : Obligations.ResetSteps4To6SuppressThePushes := by
  intro s hr hc hstep
  have row : resetInstruction.seq[s.cpu.step]? = some resetStep4 := by
    rcases hstep with hstep | hstep | hstep <;> rw [hstep] <;> rfl
  rw [← stackAddress_eq_add]
  exact step_of_reset_advance hr hc row (by omega) rfl

/-- Settles O48: the micro-operation is `resetStep7`, which keeps the byte read in `tmp8`. -/
theorem resetStep7ReadsTheVectorLowByte : Obligations.ResetStep7ReadsTheVectorLowByte := by
  intro s hr hc hstep
  have row : resetInstruction.seq[s.cpu.step]? = some resetStep7 := by simp [resetInstruction_getElem?, hstep]
  rw [step_of_reset_advance hr hc row (by omega) rfl, hstep]
  rfl

/-- Settles O49: the micro-operation is `resetStep8`, which puts the byte read above `tmp8`. -/
theorem resetStep8LoadsThePcFromTheVector : Obligations.ResetStep8LoadsThePcFromTheVector := by
  intro s hr hc hstep
  have row : resetInstruction.seq[s.cpu.step]? = some resetStep8 := by simp [resetInstruction_getElem?, hstep]
  rw [step_of_reset_advance hr hc row (by omega) rfl, hstep]
  rfl

/-! ### RESET as a table: the nine micro-operations by their index -/

/-- The address that the RESET micro-operation at `k` reads (R167 to R175). -/
def resetAddress (k : Nat) (dp : Datapath) : Word :=
  match k with
  | 0 | 1 | 2 => dummyAddress
  | 3 | 4 | 5 => stackAddress dp.sp
  | 6 => vectorLowAddress
  | 7 => vectorHighAddress
  | _ => dp.pc

/-- The datapath after the RESET micro-operation at `k`, when the bus answered `b` (R167 to R175). -/
def resetDatapath (k : Nat) (b : Byte) (dp : Datapath) : Datapath :=
  match k with
  | 0 => { dp with sp := 0x00, ir := 0x00, p := resetFlags dp.p }
  | 1 | 2 => dp
  | 3 | 4 | 5 => { dp with sp := spDecrement dp.sp }
  | 6 => { dp with tmp8 := b }
  | 7 => { dp with pc := wordOf b dp.tmp8 }
  | _ => { dp with ir := b, pc := pcIncrement dp.pc }

/-- What the RESET micro-operation at `k` yields when the bus answered `b`: only the last one sets `ready` and completes (R175). -/
def resetEffect (k : Nat) (b : Byte) (dp : Datapath) : Effect :=
  { dp := resetDatapath k b dp, setReady := decide (k = 8), ctl := if k = 8 then .complete else .advance }

/-- The model's nine micro-operations are the rows of the table. -/
theorem resetInstruction_microOp {k : Nat} (hk : k < 9) :
    resetInstruction.seq[k]? = some fun c => .read (resetAddress k c.dp) fun b => resetEffect k b c.dp :=
  match k, hk with
  | 0, _ | 1, _ | 2, _ | 3, _ | 4, _ | 5, _ | 6, _ | 7, _ | 8, _ => rfl

/-- The sequencer with `k` of RESET's nine micro-operations done: after the ninth, `step` stays at 8 and `ready` is set (R175). -/
def resetting (dp : Datapath) (k : Nat) : ProcessorState :=
  { dp := dp, cur := .reset, step := min k 8, ready := decide (k = 9) }

@[simp] theorem resetting_dp (dp : Datapath) (k : Nat) : (resetting dp k).dp = dp := rfl

/-- In Execute state of RESET in range, `step` counts the micro-operations done. -/
theorem eq_resetting {c : ProcessorState} (hr : c.ready = false) (hc : c.cur = .reset) (hk : c.step < 9) :
    c = resetting c.dp c.step := by
  have step_eq : min c.step 8 = c.step := by omega
  have not_done : decide (c.step = 9) = false := by simp [hk.ne]
  rw [resetting, step_eq, not_done, ← hr, ← hc]

/-- A counter that holds `n` keeps every number up to `n`. -/
theorem StepBits.wrap_of_holds {bits : StepBits} {m n : Nat} (h : StepBits.holds bits n = true) (hm : m ≤ n) :
    StepBits.wrap bits m = m := by
  cases bits with
  | none => rfl
  | some k => exact StepBits.wrap_of_lt (hm.trans_lt (of_decide_eq_true h))

/-- R166: each RESET micro-operation but the last advances in range, and the last completes. -/
theorem commitEffect_resetting {bits : StepBits} (h : StepBits.holds bits 8 = true) (dp : Datapath) (b : Byte) {k : Nat} (hk : k < 9) :
    commitEffect bits 9 (resetting dp k) (resetEffect k b dp) = resetting (resetDatapath k b dp) (k + 1) := by
  rcases Nat.lt_succ_iff_lt_or_eq.mp hk with not_last | rfl
  · have step_eq : (commitEffect bits 9 (resetting dp k) (resetEffect k b dp)).step = k + 1 := by
      have before : (resetting dp k).step = k := Nat.min_eq_left hk.le_pred
      rw [commitEffect_step, before]
      simp [resetEffect, not_last.ne, StepBits.wrap_of_holds h not_last]
    have next_step : (resetting (resetDatapath k b dp) (k + 1)).step = k + 1 := Nat.min_eq_left not_last
    refine commitEffect_eq (step_eq.trans next_step.symm) ?_
    rw [commitEffect_ready, step_eq]
    simp [resetEffect, resetting, not_last.ne, hk.ne, show ¬ 8 ≤ k by omega]
  · exact commitEffect_of_complete rfl

/-- R166 to R175 on any bus device, with any table and any counter that can hold 8: one tick of RESET is one read and one row of the table. -/
theorem tickOn_resetting {σ : Type} {P : Params} (h : StepBits.holds P.stepBits 8 = true) (B : BusDevice σ) (dp : Datapath) (bus : σ)
    {k : Nat} (hk : k < 9) :
    tickOn P B (resetting dp k, bus) =
      (resetting (resetDatapath k (B.read bus (resetAddress k dp)).1 dp) (k + 1), (B.read bus (resetAddress k dp)).2) := by
  have not_done : (resetting dp k).ready = false := by simp [resetting, hk.ne]
  have at_k : (resetting dp k).step = k := Nat.min_eq_left hk.le_pred
  have row := resetInstruction_microOp hk
  rw [← at_k] at row
  rw [tickOn_of_microOp not_done row rfl, at_k]
  exact congrArg (·, _) (commitEffect_resetting h dp _ hk)

/-! ### One step -/

/-- A step of the RESET row in range is one read and one row of the table. -/
theorem step_of_reset_lt {s : State} (hr : s.cpu.ready = false) (hc : s.cpu.cur = .reset) (hk : s.cpu.step < 9) :
    step s = .next
      { cpu := resetting (resetDatapath s.cpu.step (s.hostRead (resetAddress s.cpu.step s.cpu.dp)) s.cpu.dp) (s.cpu.step + 1)
        bus := { s.bus with trace := s.bus.trace ++ [.read (resetAddress s.cpu.step s.cpu.dp)] } } := by
  have ticked := tickOn_resetting (P := defaultParams) rfl flatRam s.cpu.dp s.bus hk
  rw [← eq_resetting hr hc hk] at ticked
  rw [step_eq_tickWith]
  exact congrArg (fun m => Host.Outcome.next (State.mk m.1 m.2)) ticked

/-- A step in Execute state that does not run a micro-operation of RESET changes `ready` alone: the row is a no-op (R153, R155), or RESET
is past its end (R137). -/
theorem step_of_no_reset_row {s : State} (hr : s.cpu.ready = false) (h : s.cpu.cur = .reset → 9 ≤ s.cpu.step) :
    step s = .next { s with cpu := { s.cpu with ready := true } } := by
  cases hc : s.cpu.cur with
  | table opcode => exact step_of_table hr hc
  | placeholder => exact step_of_placeholder hr hc
  | reset =>
    rw [step_of_reset hr hc, executeCycle_of_le (show resetInstruction.seq.length ≤ s.cpu.step from h hc)]
    rfl

/-- The three kinds of step, which `step_of_ready`, `step_of_no_reset_row` and `step_of_reset_lt` answer. -/
theorem State.step_kinds (s : State) :
    s.cpu.ready = true ∨ (s.cpu.ready = false ∧ (s.cpu.cur = .reset → 9 ≤ s.cpu.step)) ∨
      (s.cpu.ready = false ∧ s.cpu.cur = .reset ∧ s.cpu.step < 9) := by
  cases s.cpu.ready with
  | true => exact .inl rfl
  | false =>
    by_cases h : s.cpu.cur = .reset ∧ s.cpu.step < 9
    · exact .inr (.inr ⟨rfl, h⟩)
    · exact .inr (.inl ⟨rfl, fun hc => Nat.le_of_not_lt fun hk => h ⟨hc, hk⟩⟩)

/-- R78: the transactions of RESET, as the statement about them writes them. -/
theorem resetAddress_event {k : Nat} (hk : k < 9) (dp : Datapath) : [BusEvent.read (resetAddress k dp)] =
    if k ≤ 2 then [.read 0x00FF]
    else if k ≤ 5 then [.read (0x0100 + dp.sp.setWidth 16)]
    else if k = 6 then [.read 0xFFFC]
    else if k = 7 then [.read 0xFFFD]
    else if k = 8 then [.read dp.pc]
    else [] :=
  match k, hk with
  | 0, _ | 1, _ | 2, _ | 6, _ | 7, _ | 8, _ => rfl
  | 3, _ | 4, _ | 5, _ => congrArg (fun addr => [BusEvent.read addr]) (stackAddress_eq_add dp.sp)

/-- Settles O12: one read in Fetch state, none of a row that runs no RESET micro-operation, and the table's read of RESET. -/
theorem transactionsOfEveryDocumentedTick : Obligations.TransactionsOfEveryDocumentedTick := by
  intro s t e
  rcases s.step_kinds with hr | ⟨hr, no_row⟩ | ⟨hr, hc, hk⟩
  · rw [step_of_ready hr] at e
    cases e
    simp [hr]
  · rw [step_of_no_reset_row hr no_row] at e
    cases e
    by_cases hc : s.cpu.cur = .reset
    · have past_end := no_row hc
      simp [hr, hc, show ¬ s.cpu.step ≤ 2 by omega, show ¬ s.cpu.step ≤ 5 by omega, show s.cpu.step ≠ 6 by omega,
        show s.cpu.step ≠ 7 by omega, show s.cpu.step ≠ 8 by omega]
    · simp [hr, hc]
  · rw [step_of_reset_lt hr hc hk] at e
    cases e
    rw [if_neg (by simp [hr]), if_pos hc]
    exact congrArg (s.bus.trace ++ ·) (resetAddress_event hk s.cpu.dp)

/-! ### What a step reads and writes of the datapath -/

/-- R167: each flag after the three flag operations of RESET step 1. -/
theorem flagTest_resetFlags (q : Fin 8) (p : Byte) : flagTest q (resetFlags p) =
    (!decide (q = decimalPos) && (decide (q = unusedPos) || (decide (q = irqDisablePos) || flagTest q p))) := by
  rw [resetFlags, flagTest_clearFlagBit, flagTest_setFlagBit, flagTest_setFlagBit]

/-- R167 to R175: of the RESET micro-operations only the first writes the status byte. -/
theorem resetDatapath_p (k : Nat) (b : Byte) (dp : Datapath) : (resetDatapath k b dp).p = if k = 0 then resetFlags dp.p else dp.p :=
  match k with
  | 0 | 1 | 2 | 3 | 4 | 5 | 6 | 7 | _ + 8 => rfl

/-- No RESET micro-operation reads the status byte into another field. -/
theorem resetDatapath_with_p (k : Nat) (b q : Byte) (dp : Datapath) :
    resetDatapath k b { dp with p := q } = { resetDatapath k b dp with p := if k = 0 then resetFlags q else q } :=
  match k with
  | 0 | 1 | 2 | 3 | 4 | 5 | 6 | 7 | _ + 8 => rfl

/-- The datapath with the registers of host microcode replaced. -/
def Datapath.withHostRegs (dp : Datapath) (r : HostRegs) : Datapath :=
  { dp with a := r.a, x := r.x, y := r.y, tmp16 := r.tmp16, eff := r.eff, crossed := r.crossed }

/-- No RESET micro-operation reads or writes the registers of host microcode. -/
theorem resetDatapath_withHostRegs (k : Nat) (b : Byte) (dp : Datapath) (r : HostRegs) :
    resetDatapath k b (dp.withHostRegs r) = (resetDatapath k b dp).withHostRegs r :=
  match k with
  | 0 | 1 | 2 | 3 | 4 | 5 | 6 | 7 | _ + 8 => rfl

/-- No RESET address is formed from the status byte or from a register of host microcode. -/
theorem resetAddress_congr {dp dp' : Datapath} (hsp : dp.sp = dp'.sp) (hpc : dp.pc = dp'.pc) (k : Nat) :
    resetAddress k dp = resetAddress k dp' :=
  match k with
  | 0 | 1 | 2 | 6 | 7 => rfl
  | 3 | 4 | 5 => congrArg stackAddress hsp
  | _ + 8 => hpc

/-- `s` with its datapath passed through `f`. -/
def State.mapDatapath (f : Datapath → Datapath) (s : State) : State :=
  { s with cpu := { s.cpu with dp := f s.cpu.dp } }

theorem State.withHostRegs_eq (s : State) (r : HostRegs) : s.withHostRegs r = s.mapDatapath (·.withHostRegs r) := rfl

theorem State.withStatus_eq (s : State) (q : Byte) : s.withStatus q = s.mapDatapath ({ · with p := q }) := rfl

/-- A change `f` of the datapath that forms the same addresses and that the micro-operation at `step` turns into `g`: the RESET step turns `f` into `g`. -/
theorem step_of_reset_mapDatapath {s t : State} {f g : Datapath → Datapath} (hr : s.cpu.ready = false) (hc : s.cpu.cur = .reset)
    (hk : s.cpu.step < 9) (e : step s = .next t) (hsp : (f s.cpu.dp).sp = s.cpu.dp.sp) (hpc : (f s.cpu.dp).pc = s.cpu.dp.pc)
    (row : ∀ b, resetDatapath s.cpu.step b (f s.cpu.dp) = g (resetDatapath s.cpu.step b s.cpu.dp)) :
    step (s.mapDatapath f) = .next (t.mapDatapath g) := by
  rw [step_of_reset_lt hr hc hk] at e
  cases e
  have changed : step (s.mapDatapath f) = _ := step_of_reset_lt hr hc hk
  simp only [State.mapDatapath, resetAddress_congr hsp hpc, row] at changed
  exact changed

/-- In each kind of step the next state is formed without the registers of host microcode, and they stay. -/
theorem step_withHostRegs {s t : State} (e : step s = .next t) (r : HostRegs) : step (s.withHostRegs r) = .next (t.withHostRegs r) := by
  rcases s.step_kinds with hr | ⟨hr, no_row⟩ | ⟨hr, hc, hk⟩
  · rw [step_of_ready hr] at e
    cases e
    exact step_of_ready (s := s.withHostRegs r) hr
  · rw [step_of_no_reset_row hr no_row] at e
    cases e
    exact step_of_no_reset_row (s := s.withHostRegs r) hr no_row
  · rw [State.withHostRegs_eq, State.withHostRegs_eq]
    exact step_of_reset_mapDatapath hr hc hk e rfl rfl fun b => resetDatapath_withHostRegs s.cpu.step b s.cpu.dp r

/-- Settles O7: only RESET step 1 forms a value from the status byte, and that value is a status byte. -/
theorem documentedTicksNeverReadTheStatusByte : Obligations.DocumentedTicksNeverReadTheStatusByte := by
  intro s t q e
  rcases s.step_kinds with hr | ⟨hr, no_row⟩ | ⟨hr, hc, hk⟩
  · rw [step_of_ready hr] at e
    cases e
    exact ⟨q, step_of_ready (s := s.withStatus q) hr⟩
  · rw [step_of_no_reset_row hr no_row] at e
    cases e
    exact ⟨q, step_of_no_reset_row (s := s.withStatus q) hr no_row⟩
  · refine ⟨if s.cpu.step = 0 then resetFlags q else q, ?_⟩
    rw [State.withStatus_eq, State.withStatus_eq]
    exact step_of_reset_mapDatapath hr hc hk e rfl rfl fun b => resetDatapath_with_p s.cpu.step b q s.cpu.dp

/-- Settles O6: the table writes the status byte in its first row alone, and there it is the three flag operations of R167. -/
theorem onlyResetStep1WritesTheStatusByte : Obligations.OnlyResetStep1WritesTheStatusByte := by
  intro s t e
  rcases s.step_kinds with hr | ⟨hr, no_row⟩ | ⟨hr, hc, hk⟩
  · rw [step_of_ready hr] at e
    cases e
    simp [hr]
  · rw [step_of_no_reset_row hr no_row] at e
    cases e
    rw [if_neg]
    rintro ⟨-, hc, hstep⟩
    exact absurd (no_row hc) (by omega)
  · rw [step_of_reset_lt hr hc hk] at e
    cases e
    rw [resetting_dp, resetDatapath_p]
    by_cases hstep : s.cpu.step = 0
    · rw [if_pos ⟨hr, hc, hstep⟩, if_pos hstep]
      have named : irqDisablePos ≠ decimalPos ∧ unusedPos ≠ decimalPos := by decide
      exact ⟨by simp [flagTest_resetFlags, named], by simp [flagTest_resetFlags, named], by simp [flagTest_resetFlags],
        fun q hi hu hd => by simp [flagTest_resetFlags, hi, hu, hd]⟩
    · simp [hstep]

end Sys2Proof.Machine
end

section
/-! PROOFS. `reset()` as a whole: spec/43_reset_microcode.md sections 1 and 3. -/

namespace Sys2Proof.Machine

/-! ### The loop of `reset()` -/

/-- R165: the set-up of `reset()` is RESET with none of its micro-operations done. -/
theorem beginReset_eq_resetting (c : ProcessorState) : beginReset c = resetting c.dp 0 := rfl

/-- Once the loop has ended, more fuel changes nothing. -/
theorem tickUntilReady_mono {σ : Type} {P : Params} {B : BusDevice σ} {n n' : Nat} {m m' : ProcessorState × σ}
    (e : tickUntilReady P B n m = some m') (h : n ≤ n') : tickUntilReady P B n' m = some m' := by
  induction n generalizing n' m with
  | zero => cases e
  | succ n ih =>
    obtain ⟨n', rfl⟩ := Nat.exists_eq_add_of_le' (Nat.le_of_add_left_le h)
    rw [tickUntilReady] at e ⊢
    split at e
    · next ready => rw [if_pos ready, e]
    · next not_ready => rw [if_neg not_ready, ih e (Nat.le_of_succ_le_succ h)]

section loop
variable {σ : Type} {P : Params} (h : StepBits.holds P.stepBits 8 = true) (B : BusDevice σ) (dp : Datapath) (bus : σ)
include h

/-- Each of the first eight micro-operations of RESET is one turn of the loop. -/
theorem tickUntilReady_resetting {k : Nat} (hk : k < 8) (fuel : Nat) :
    tickUntilReady P B (fuel + 1) (resetting dp k, bus) =
      tickUntilReady P B fuel
        (resetting (resetDatapath k (B.read bus (resetAddress k dp)).1 dp) (k + 1), (B.read bus (resetAddress k dp)).2) := by
  rw [tickUntilReady, tickOn_resetting h B dp bus (Nat.lt_succ_of_lt hk), if_neg]
  simp [resetting, hk.ne]

/-- R170 to R172: a suppressed push as a turn of the loop, by the address it reads and what it leaves in `sp`. -/
theorem tickUntilReady_resetting_push {k : Nat} (hk : k = 3 ∨ k = 4 ∨ k = 5) {addr : Word} {sp : Byte}
    (push : stackAddress dp.sp = addr ∧ spDecrement dp.sp = sp) (fuel : Nat) :
    tickUntilReady P B (fuel + 1) (resetting dp k, bus) =
      tickUntilReady P B fuel (resetting { dp with sp := sp } (k + 1), (B.read bus addr).2) := by
  obtain ⟨rfl, rfl⟩ := push
  rw [tickUntilReady_resetting h B dp bus (by omega)]
  rcases hk with rfl | rfl | rfl <;> rfl

/-- The ninth ends it. -/
theorem tickUntilReady_resetting_last (fuel : Nat) :
    tickUntilReady P B (fuel + 1) (resetting dp 8, bus) =
      some (resetting (resetDatapath 8 (B.read bus (resetAddress 8 dp)).1 dp) 9, (B.read bus (resetAddress 8 dp)).2) := by
  rw [tickUntilReady, tickOn_resetting h B dp bus (by omega), if_pos]
  rfl

/-- R176: without fuel for the micro-operations that are left, the loop does not end. -/
theorem tickUntilReady_resetting_eq_none {n k : Nat} (short : n + k < 9) : tickUntilReady P B n (resetting dp k, bus) = none := by
  induction n generalizing k dp bus with
  | zero => rfl
  | succ n ih =>
    rw [tickUntilReady_resetting h B dp bus (by omega)]
    exact ih _ _ (by omega)

end loop

/-- Settles O52: eight turns of the loop (`tickUntilReady_resetting`), each one row of the table, and the ninth. -/
theorem resetOnAnyBusAndAnyTable : Obligations.ResetOnAnyBusAndAnyTable := by
  intro σ P B c bus h b1 b2 b3 b4 b5 b6 lo hi V op
  rw [← resetFlags_eq]
  let cleared : Datapath := { c.dp with sp := 0x00, ir := 0x00, p := resetFlags c.dp.p }
  have turn (k : Nat) (hk : k < 8) (dp : Datapath) (b : σ) (fuel : Nat) := tickUntilReady_resetting h B dp b hk fuel
  have push4 : stackAddress 0x00 = 0x0100 ∧ spDecrement 0x00 = 0xFF := by decide
  have push5 : stackAddress 0xFF = 0x01FF ∧ spDecrement 0xFF = 0xFE := by decide
  have push6 : stackAddress 0xFE = 0x01FE ∧ spDecrement 0xFE = 0xFD := by decide
  calc resetOn P B 9 (c, bus)
    _ = tickUntilReady P B 9 (resetting c.dp 0, bus) := by rw [resetOn, beginReset_eq_resetting]
    _ = tickUntilReady P B 8 (resetting cleared 1, b1) := turn 0 (by omega) ..
    _ = tickUntilReady P B 7 (resetting cleared 2, b2) := turn 1 (by omega) ..
    _ = tickUntilReady P B 6 (resetting cleared 3, b3) := turn 2 (by omega) ..
    _ = tickUntilReady P B 5 (resetting { cleared with sp := 0xFF } 4, b4) := tickUntilReady_resetting_push h B _ _ (by omega) push4 _
    _ = tickUntilReady P B 4 (resetting { cleared with sp := 0xFE } 5, b5) := tickUntilReady_resetting_push h B _ _ (by omega) push5 _
    _ = tickUntilReady P B 3 (resetting { cleared with sp := 0xFD } 6, b6) := tickUntilReady_resetting_push h B _ _ (by omega) push6 _
    _ = tickUntilReady P B 2 (resetting { cleared with sp := 0xFD, tmp8 := lo.1 } 7, lo.2) := turn 6 (by omega) ..
    _ = tickUntilReady P B 1 (resetting { cleared with sp := 0xFD, tmp8 := lo.1, pc := V } 8, hi.2) := turn 7 (by omega) ..
    _ = some (resetting { cleared with sp := 0xFD, tmp8 := lo.1, pc := V + 1, ir := op.1 } 9, op.2) := tickUntilReady_resetting_last h ..

/-- Settles O53: fewer than nine ticks leave micro-operations to run; nine end it, and more fuel changes nothing. -/
theorem resetEndsAfterExactlyNineTicks : Obligations.ResetEndsAfterExactlyNineTicks := by
  intro σ P B m h
  refine ⟨fun n hn => tickUntilReady_resetting_eq_none h B m.1.dp m.2 (k := 0) hn, fun n hn => ?_⟩
  have nine := resetOnAnyBusAndAnyTable σ P B m.1 m.2 h
  have more : resetOn P B n m = _ := tickUntilReady_mono nine hn
  rw [nine, more]
  exact ⟨rfl, rfl⟩

/-! ### `reset()` of the machine -/

/-- Settles O51: on flat RAM no read changes a byte, so the bytes of O52 are those of the state before, and the trace is the nine reads. -/
theorem resetFromAnyStateLeavesTheDocumentedState : Obligations.ResetFromAnyStateLeavesTheDocumentedState := by
  intro s V
  rw [State.runReset_eq_some, resetOnAnyBusAndAnyTable Bus defaultParams flatRam s.cpu s.bus rfl]
  simp only [flatRam_read_snd, List.append_assoc]
  rfl

/-- Settles O54: the state is that of O51, whose `pc` is the vector plus one and whose memory is that of the state before. -/
theorem firstFetchAfterResetIsAtTheVectorPlusOne : Obligations.FirstFetchAfterResetIsAtTheVectorPlusOne := by
  intro s t e V
  rw [resetFromAnyStateLeavesTheDocumentedState s] at e
  cases e
  exact ⟨rfl, _, step_of_ready rfl, rfl, rfl, rfl, BitVec.add_assoc V 1 1, rfl, rfl⟩

/-- Settles O55: the state of O51 from the construction values, with the vector 0x8000. -/
theorem resetOfAFreshMachineIsDeterministic : Obligations.ResetOfAFreshMachineIsDeterministic := by
  intro scratch mem t low high e
  have vector : wordOf 0x80 0x00 = 0x8000 := by decide
  rw [resetFromAnyStateLeavesTheDocumentedState, low, high, vector] at e
  obtain ⟨p_eq, irq_disable, unused, decimal⟩ :
      let p : Byte := (0x24 ||| 0x24) &&& 0xF7
      p = 0x24 ∧ flagTest irqDisablePos p = true ∧ flagTest unusedPos p = true ∧ flagTest decimalPos p = false := by decide
  cases e
  exact ⟨rfl, rfl, p_eq, rfl, rfl, rfl, rfl, rfl, rfl, rfl, irq_disable, unused, decimal⟩

/-- R167: the three flag operations give the same byte whatever bits 2, 3 and 5 were. -/
theorem resetFlags_of_overwritten (p q : Byte) : resetFlags ((p &&& 0xD3) ||| (q &&& 0x2C)) = resetFlags p := by
  rw [resetFlags_eq, resetFlags_eq]
  ext i hi
  interval_cases i <;> simp

/-- Settles O56: the two results of O51 differ in what they make of the status byte alone, which is `resetFlags_of_overwritten`. -/
theorem resetDoesNotDependOnTheValuesItOverwrites : Obligations.ResetDoesNotDependOnTheValuesItOverwrites := by
  intro s tmp8 sp ir q pc cur k ready
  have same_flags := resetFlags_of_overwritten s.cpu.dp.p q
  rw [resetFlags_eq, resetFlags_eq] at same_flags
  rw [resetFromAnyStateLeavesTheDocumentedState, resetFromAnyStateLeavesTheDocumentedState]
  simp only [same_flags]
  rfl

/-- Settles O5: the steps by `step_withHostRegs`; the state of `reset()` (O51) and of construction, read off. -/
theorem documentedTicksNeitherReadNorWriteHostRegisters : Obligations.DocumentedTicksNeitherReadNorWriteHostRegisters := by
  refine ⟨fun s t r e => step_withHostRegs e r, fun s t e => ?_, fun _ _ => ⟨rfl, rfl, rfl⟩⟩
  rw [resetFromAnyStateLeavesTheDocumentedState s] at e
  cases e
  exact ⟨rfl, rfl, rfl, rfl, rfl, rfl⟩

end Sys2Proof.Machine
end

section
/-! PROOFS. The canonical form of memory, and what the bus answers: spec/20_memory.md. -/

namespace Sys2Proof.Machine

/-- Settles O9: a bus address is below 65536, so the write stays canonical (`Memory.wf_write`). -/
theorem memoryWriteKeepsTheCanonicalForm : Obligations.MemoryWriteKeepsTheCanonicalForm :=
  fun _ addr v mem_wf => Memory.wf_write mem_wf addr v

/-- A rising list with a first cell: its address is in the space above the bound, and the rest rises above it. -/
theorem Memory.risingFrom_cons {low k : Nat} {v : Byte} {m : Memory} :
    Memory.risingFrom low ((k, v) :: m) = true ↔ low ≤ k ∧ k < 65536 ∧ Memory.risingFrom (k + 1) m = true := by
  simp [Memory.risingFrom, and_assoc]

@[simp] theorem Memory.read?_head (k : Nat) (v : Byte) (m : Memory) : Memory.read? ((k, v) :: m) k = some v := by
  simp [Memory.read?]

theorem Memory.read?_cons_of_ne {k addr : Nat} (h : addr ≠ k) (v : Byte) (m : Memory) :
    Memory.read? ((k, v) :: m) addr = Memory.read? m addr := by
  simp [Memory.read?, h]

/-- If every byte that `m'` answers is also answered by a rising memory that starts at `k`, then `m'` does not start below `k`. -/
theorem Memory.le_of_read?_eq {low k k' : Nat} {v v' : Byte} {m m' : Memory} (hm : Memory.risingFrom low ((k, v) :: m) = true)
    (hk' : k' < 65536) (same : ∀ addr < 65536, Memory.read? ((k, v) :: m) addr = Memory.read? ((k', v') :: m') addr) : k ≤ k' := by
  by_contra below
  have rising : Memory.risingFrom k ((k, v) :: m) = true := by
    rw [Memory.risingFrom_cons] at hm ⊢
    exact ⟨le_rfl, hm.2⟩
  have unlisted := Memory.read?_of_lt _ rising (Nat.lt_of_not_le below)
  rw [same k' hk', Memory.read?_head] at unlisted
  cases unlisted

/-- Two rising memories with the same bytes are the same list: they start at the same address with the same byte, and below its
successor the rest of either answers nothing. -/
theorem Memory.eq_of_risingFrom {low low' : Nat} {m m' : Memory} (hm : Memory.risingFrom low m = true) (hm' : Memory.risingFrom low' m' = true)
    (same : ∀ addr < 65536, Memory.read? m addr = Memory.read? m' addr) : m = m' := by
  induction m generalizing low low' m' with
  | nil =>
    cases m' with
    | nil => rfl
    | cons cell' m' =>
      obtain ⟨k', v'⟩ := cell'
      have h := same k' (Memory.risingFrom_cons.mp hm').2.1
      rw [Memory.read?_head] at h
      cases h
  | cons cell m ih =>
    obtain ⟨k, v⟩ := cell
    obtain ⟨-, hk, rising⟩ := Memory.risingFrom_cons.mp hm
    cases m' with
    | nil =>
      have h := same k hk
      rw [Memory.read?_head] at h
      cases h
    | cons cell' m' =>
      obtain ⟨k', v'⟩ := cell'
      obtain ⟨-, hk', rising'⟩ := Memory.risingFrom_cons.mp hm'
      obtain rfl : k = k' :=
        Nat.le_antisymm (Memory.le_of_read?_eq hm hk' same) (Memory.le_of_read?_eq hm' hk fun addr h => (same addr h).symm)
      obtain rfl : v = v' := by simpa using same k hk
      have same_tail (addr : Nat) (h : addr < 65536) : Memory.read? m addr = Memory.read? m' addr := by
        rcases Nat.lt_or_ge addr (k + 1) with below | above
        · rw [Memory.read?_of_lt m rising below, Memory.read?_of_lt m' rising' below]
        · have not_head : addr ≠ k := by omega
          rw [← Memory.read?_cons_of_ne not_head v m, same addr h, Memory.read?_cons_of_ne not_head]
      rw [ih rising rising' same_tail]

/-- Settles O10: a canonical memory is rising from 0, and the addresses below 65536 are the bus addresses (`Memory.eq_of_risingFrom`). -/
theorem canonicalMemoriesWithEqualBytesAreEqual : Obligations.CanonicalMemoriesWithEqualBytesAreEqual := by
  intro m m' mem_wf mem_wf' same
  refine Memory.eq_of_risingFrom mem_wf mem_wf' fun addr h => ?_
  simpa [Nat.mod_eq_of_lt h] using same (BitVec.ofNat 16 addr)

/-- Settles O14: the step latches what the poked bus answers at `pc`; in Execute state of a table row it looks at no byte. -/
theorem writesAreSeenByTheNextFetchAndNotByTheCurrentInstruction :
    Obligations.WritesAreSeenByTheNextFetchAndNotByTheCurrentInstruction := by
  constructor
  · intro s v hr
    have answer : (s.bus.poke s.cpu.dp.pc v).peek s.cpu.dp.pc = v := by rw [Bus.peek_poke, if_pos rfl]
    exact ⟨_, step_of_ready (s := s.hostWrite s.cpu.dp.pc v) hr, answer, congrArg MicroRow.table answer⟩
  · intro s t addr v opcode hr hc e
    rw [step_of_table hr hc] at e
    cases e
    exact step_of_table (s := s.hostWrite addr v) hr hc

/-- Settles O26: the pull's increment undoes the push's decrement, so it reads the address the push wrote. -/
theorem pushThenPullGivesTheByteBack : Obligations.PushThenPullGivesTheByteBack := by
  intro bus dp v pushed pulled
  have address : stackAddress (spIncrement (spDecrement dp.sp)) = stackAddress dp.sp := by rw [spIncrement_spDecrement]
  have answer : (flatRam.write bus (stackAddress dp.sp) v).peek (stackAddress dp.sp) = v := by rw [flatRam_write_peek, if_pos rfl]
  constructor
  · simp [pulled, pushed, Effect.done, answer]
  · intro addr elsewhere
    exact (flatRam_write_peek bus (stackAddress dp.sp) v addr).trans (if_neg elsewhere)

/-- Settles O57: the move writes `pc` and leaves Fetch state, so the next step reads where `pc` now points. -/
theorem hostWritesThePcInFetchStateOnly : Obligations.HostWritesThePcInFetchStateOnly := by
  have moved (s : State) (v : Word) (hr : s.cpu.ready = true) :
      s.hostSetPc v = some { s with cpu := { s.cpu with dp := { s.cpu.dp with pc := v } } } := if_pos hr
  refine ⟨fun s v hr => ⟨moved s v hr, fun t u ht e => ?_⟩, fun s v hr => if_neg (by simp [hr])⟩
  rw [moved s v hr] at ht
  cases ht
  rw [step_of_ready (by exact hr)] at e
  cases e
  exact ⟨rfl, rfl⟩

end Sys2Proof.Machine
end

section
/-! PROOFS. Encoding, and the default no-op as an instruction: spec/30_encoding.md, spec/42_microcode_table.md. -/

namespace Sys2Proof.Machine

/-- Settles O15: the decoder reads one byte, and each of these is its own opcode. -/
theorem writtenOutOpcodeBytesDecode : Obligations.WrittenOutOpcodeBytesDecode :=
  ⟨rfl, rfl, rfl, rfl, rfl, rfl⟩

/-- The bytes that decode are the opcode of the instruction and the rest. -/
theorem encode_append_of_decode {bytes rest : List Byte} {i : Instr} (h : decode bytes = .ok (i, rest)) : encode i ++ rest = bytes := by
  cases bytes with
  | nil => cases h
  | cons opcode bytes =>
    cases h
    rfl

/-- Settles O16: decoding inverts encoding by `Laws.Encoding.nop`, encoding inverts decoding by `encode_append_of_decode`. -/
theorem decodingAndEncodingAgreeOnEveryByte : Obligations.DecodingAndEncodingAgreeOnEveryByte := by
  refine ⟨fun b rest => rfl, fun i rest _ => ?_, fun _ _ _ => encode_append_of_decode⟩
  cases i with
  | nop opcode => exact ⟨rfl, (Laws.Encoding.nop opcode).2 rest⟩

/-- Settles O17: the default table is constant, so installing the value it already has changes no entry. -/
theorem defaultTableIsTheNoOpAtEveryOpcode : Obligations.DefaultTableIsTheNoOpAtEveryOpcode :=
  ⟨fun _ => rfl, fun _ _ _ _ => rfl, funext fun _ => ite_self _⟩

/-- Settles O37: in Fetch state `exec` latches the opcode of the instruction. -/
theorem nopFetchCycleCompletes : Obligations.NopFetchCycleCompletes :=
  fun _ _ hr => execNop_of_ready hr

/-- Settles O38: in Execute state `exec` runs the micro-operation of the no-op, which only completes. -/
theorem nopExecuteCycleCompletes : Obligations.NopExecuteCycleCompletes :=
  fun _ _ hr => execNop_of_not_ready hr

/-- Settles O39: the frame of the two cycles (O37, O38), read off their next states. -/
theorem nopLeavesEverythingElseUnchanged : Obligations.NopLeavesEverythingElseUnchanged := by
  intro opcode s t e
  cases hr : s.cpu.ready with
  | true =>
    rw [nopFetchCycleCompletes opcode s hr] at e
    cases e
    exact ⟨rfl, rfl, rfl, rfl, rfl, fun _ => rfl, rfl, rfl, rfl, rfl, fun _ => rfl, rfl⟩
  | false =>
    rw [nopExecuteCycleCompletes opcode s hr] at e
    cases e
    exact ⟨rfl, rfl, rfl, rfl, rfl, fun _ => rfl, rfl, rfl, rfl, rfl, fun _ => rfl, rfl⟩

/-- Settles O41: the byte at `pc` decodes to the no-op that holds it, and both sides latch it. -/
theorem fetchStepRunsTheDecodedInstruction : Obligations.FetchStepRunsTheDecodedInstruction := by
  intro s i hr decoded _
  cases decoded
  rw [step_of_ready hr]
  exact (execNop_of_ready (s := s.fetchOpcode.2) hr).symm

/-- Settles O42: one clause for each of the three rows. -/
theorem executeStepRunsTheSelectedInstruction : Obligations.ExecuteStepRunsTheSelectedInstruction := by
  refine ⟨fun s opcode i hr hc decoded _ => ?_, fun s => step_of_reset, fun s => step_of_placeholder⟩
  cases decoded
  rw [step_of_table hr hc]
  exact (execNop_of_not_ready hr).symm

/-- Settles O40: the Fetch step leads into Execute state of a table row, whose step only sets `ready`. -/
theorem nopInstructionNetEffectInTwoTicks : Obligations.NopInstructionNetEffectInTwoTicks := by
  intro s hr
  simp only [runSteps, step_of_ready hr]
  rw [step_of_table rfl rfl]
  rfl

/-- Settles O43: by induction; the opcode of one more instruction is the byte at the `pc` reached, which no step has changed. -/
theorem everyDefaultProgramIsARunOfNoOps : Obligations.EveryDefaultProgramIsARunOfNoOps := by
  intro n s hr
  induction n with
  | zero => exact ⟨s, rfl, hr, by simp, rfl, by simp⟩
  | succ n ih =>
    obtain ⟨t, run, ready, dp, mem, trace⟩ := ih
    have same_byte (addr : Word) : t.hostRead addr = s.hostRead addr := Bus.peek_congr mem addr
    have next_pc : s.cpu.dp.pc + BitVec.ofNat 16 n + 1#16 = s.cpu.dp.pc + BitVec.ofNat 16 (n + 1) := by
      rw [BitVec.add_assoc, BitVec.ofNat_add]
    refine ⟨_, (runSteps_add run 2).trans (nopInstructionNetEffectInTwoTicks t ready), rfl, ?_, mem, ?_⟩
    · simp [dp, same_byte, next_pc]
    · simp [dp, trace, List.range_succ]

end Sys2Proof.Machine
end

section
/-! PROOFS. The flags logic: spec/40_flags_and_stack_ops.md section 1. -/

namespace Sys2Proof.Machine

/-- A position is refused exactly when it is above 7 (D10). -/
theorem flagPosition?_eq_none_iff (pos : Nat) : flagPosition? pos = none ↔ 7 < pos := by
  unfold flagPosition?
  split
  · next accepted => simpa using Nat.le_of_lt_succ accepted
  · next refused => simpa using Nat.lt_of_succ_le (Nat.le_of_not_lt refused)

/-- Settles O18: the two laws of the flag operations, with the Boolean operations written as a choice. -/
theorem setAndClearWriteExactlyOneBit : Obligations.SetAndClearWriteExactlyOneBit := by
  refine ⟨fun pos q p => ?_, fun pos q p => ?_, flagPosition?_eq_none_iff⟩
  · rw [flagTest_setFlagBit]
    by_cases h : q = pos <;> simp [h]
  · rw [flagTest_clearFlagBit]
    by_cases h : q = pos <;> simp [h]

/-- R112: the flag test is `(p >> pos) & 1`. -/
theorem flagTest_eq_shift (pos : Fin 8) (p : Byte) : flagTest pos p = decide ((p >>> pos.val) &&& 1 = 1) := by
  rw [show (1 : Byte) = 1#8 from rfl, BitVec.and_one_eq_setWidth_ofBool_getLsbD, BitVec.getLsbD_ushiftRight, Nat.add_zero, flagTest]
  cases p.getLsbD pos.val <;> rfl

/-- Settles O19: the shift form is `flagTest_eq_shift`, and each named boolean is the flag test at its position. -/
theorem theTwoFlagViewsAgree : Obligations.TheTwoFlagViewsAgree :=
  ⟨flagTest_eq_shift, fun _ => ⟨rfl, rfl, rfl, rfl, rfl, rfl, rfl, rfl⟩⟩

/-- The flag test of an OR. -/
theorem flagTest_or (q : Fin 8) (a b : Byte) : flagTest q (a ||| b) = (flagTest q a || flagTest q b) :=
  BitVec.getLsbD_or ..

/-- A mask that is there only if `present` holds: one bit, at its own position. -/
theorem flagTest_mask_if (q pos : Fin 8) (present : Bool) : flagTest q (if present then flagMask pos else 0) = (present && decide (q = pos)) := by
  cases present with
  | false => simp [flagTest]
  | true => simpa [setFlagBit, flagTest] using flagTest_setFlagBit pos q 0

/-- `to_byte` as the OR of one mask for each boolean. -/
theorem toByte_eq_masks (f : Flags) : toByte f =
    (if f.carry then flagMask carryPos else 0) ||| (if f.zero then flagMask zeroPos else 0) |||
    (if f.irqDisable then flagMask irqDisablePos else 0) ||| (if f.decimal then flagMask decimalPos else 0) |||
    (if f.brk then flagMask breakPos else 0) ||| (if f.unused then flagMask unusedPos else 0) |||
    (if f.overflow then flagMask overflowPos else 0) ||| (if f.negative then flagMask negativePos else 0) := rfl

/-- Settles O20: at each position one of the eight masks has its bit and the other seven have none. -/
theorem toBytePacksEachFlagAtItsOwnPosition : Obligations.ToBytePacksEachFlagAtItsOwnPosition := by
  intro f
  simp only [toByte_eq_masks, flagTest_or, flagTest_mask_if]
  simp [carryPos, zeroPos, irqDisablePos, decimalPos, breakPos, unusedPos, overflowPos, negativePos]

/-- Two bytes with the same eight flags are equal. -/
theorem eq_of_flagTest_eq {a b : Byte} (h : ∀ q, flagTest q a = flagTest q b) : a = b :=
  BitVec.eq_of_getLsbD_eq fun i hi => h ⟨i, hi⟩

/-- Settles O21: both round trips compare the eight flags that `to_byte` packs (O20); `force_unused` is `set_flag_bit` at bit 5. -/
theorem conversionsAreInversesAndForcingIsSeparate : Obligations.ConversionsAreInversesAndForcingIsSeparate := by
  refine ⟨fun b => eq_of_flagTest_eq fun q => ?_, fun f => ?_, fun b q => setAndClearWriteExactlyOneBit.1 unusedPos q b⟩
  · obtain ⟨h0, h1, h2, h3, h4, h5, h6, h7⟩ := toBytePacksEachFlagAtItsOwnPosition (fromByte b)
    fin_cases q
    exacts [h0, h1, h2, h3, h4, h5, h6, h7]
  · obtain ⟨h0, h1, h2, h3, h4, h5, h6, h7⟩ := toBytePacksEachFlagAtItsOwnPosition f
    exact (Flags.mk.injEq ..).mpr ⟨h0, h1, h2, h3, h4, h5, h6, h7⟩

end Sys2Proof.Machine
end
